-- ==== Sys2Proof/Word.lean ====
section
/-! DEFINITION. The machine's words: 32-bit command and response words (30_encoding.md R70), bytes
(table entries, brightness values, bus payload bytes, 00_scope.md R7), and the pair a `BRIGHT_BULK`
payload word carries (R76). -/

namespace Sys2Proof

/-- A word of the command port or the response port (R70, R71). -/
abbrev Word := BitVec 32

/-- A byte: a table entry, a brightness, a bus payload byte (R7). -/
abbrev Byte := BitVec 8

/-- A channel index 0..17 that has been validated (R7, R78). -/
abbrev Chan := Fin 18

/-- One payload word of `BRIGHT_BULK`: `PCH = word[31:16]`, `PVAL = word[15:0]` (R76). -/
structure BrightPair where
  channel : BitVec 16
  value : BitVec 16
  deriving DecidableEq, Repr

end Sys2Proof
end

