-- ==== Sys2Proof/Machine/BusMap.lean ====
section
/-! DEFINITION. The hardwired constants of the downstream side (00_scope.md R7, 10_state.md R30), the
payload bytes written there (20_memory.md R56), and the mask packer (00_scope.md R11). -/

namespace Sys2Proof.Machine

/-- `TARGET`, the chip's address on the bus (R30). -/
def busTarget : Byte := 0x54

/-- `REG_OUTEN`, output enable (R30). -/
def regOutEn : Byte := 0x00

/-- `REG_PWM`, the first PWM value (R30). -/
def regPwm : Byte := 0x01

/-- `REG_MASK`, the channel-enable mask (R30). -/
def regMask : Byte := 0x13

/-- `REG_COMMIT`, commit/update (R30). -/
def regCommit : Byte := 0x16

/-- `REG_RESET`, reset (R30). -/
def regReset : Byte := 0x17

/-- Payload of output enable (R56). -/
def outOn : List Byte := [0x01]

/-- Payload of output disable (R56). -/
def outOff : List Byte := [0x00]

/-- Payload of the commit write (R56). -/
def commitData : List Byte := [0xFF]

/-- Payload of the reset write (R56). -/
def resetData : List Byte := [0xFF]

/-- Byte `g` of the packed mask: mask bits `6 g + 5` down to `6 g` (R11, R54a). -/
def packGroup (m : BitVec 18) (g : Nat) : Byte := ((m >>> (6 * g)) &&& 0x3F).setWidth 8

/-- `pack(m)`, least significant group first (R11). -/
def pack (m : BitVec 18) : List Byte := [packGroup m 0, packGroup m 1, packGroup m 2]

end Sys2Proof.Machine
end

