-- ==== Sys2Proof/Config.lean ====
section
/-! DEFINITION. The parameters the spec lets an implementation choose (00_scope.md R8), at the value
the spec itself gives. Nothing here is a free value: every one is stated by a numbered rule. -/

namespace Sys2Proof.Config

/-- Reset value of `MASK` (10_state.md R28; the spec's decision D10). -/
def maskReset : BitVec 18 := 0

/-- Reset value of every brightness register (10_state.md R22; the spec's decision D11). -/
def brReset : Byte := 0

end Sys2Proof.Config
end

