-- ==== Sys2Proof/Syntax.lean ====
section
/-! DEFINITION. The 20 commands of the engine (30_encoding.md R81), one constructor per row of
opcode_table.json, with the operands of the row's format (R74, R76). Operands keep the width of their
field, so that every value the encoding admits, the invalid ones too, can be written (R77). `LEN` is the
number of payload words the instruction carries. -/

namespace Sys2Proof

inductive Instr where
  /-- `OPEN`, format N (R100). -/
  | openCmd
  /-- `CLOSE`, format N (R101). -/
  | closeCmd
  /-- `OUT_ENABLE`, format N (R102). -/
  | outEnable
  /-- `OUT_DISABLE`, format N (R103). -/
  | outDisable
  /-- `CHIP_RESET`, format N (R104). -/
  | chipReset
  /-- `CH_ON_V sel`, format V (R122). -/
  | chOnV (sel : BitVec 24)
  /-- `CH_OFF_V sel`, format V (R123). -/
  | chOffV (sel : BitVec 24)
  /-- `CH_ON_I ch`, format C (R124). -/
  | chOnI (ch : BitVec 5)
  /-- `CH_OFF_I ch`, format C (R125). -/
  | chOffI (ch : BitVec 5)
  /-- `ALL_ON`, format N (R126). -/
  | allOn
  /-- `ALL_OFF`, format N (R127). -/
  | allOff
  /-- `MASK_LOAD sel`, format V (R128). -/
  | maskLoad (sel : BitVec 24)
  /-- `IS_SET ch`, format C (R130). -/
  | isSet (ch : BitVec 5)
  /-- `MASK_READ`, format N (R131). -/
  | maskRead
  /-- `GAMMA_SET ch, entries`, format CL; `LEN` is the number of entries (R151). -/
  | gammaSet (ch : BitVec 5) (entries : List Word)
  /-- `GAMMA_RESET ch`, format C (R153). -/
  | gammaReset (ch : BitVec 5)
  /-- `GAMMA_RESET_ALL`, format N (R154). -/
  | gammaResetAll
  /-- `TRANSLATE ch, val`, format CV (R155). -/
  | translate (ch : BitVec 5) (val : BitVec 16)
  /-- `BRIGHT_SET ch, val`, format CV (R171). -/
  | brightSet (ch : BitVec 5) (val : BitVec 16)
  /-- `BRIGHT_BULK pairs`, format L; `LEN` is the number of pairs (R173). -/
  | brightBulk (pairs : List BrightPair)
  deriving DecidableEq, Repr

end Sys2Proof
end

