-- ==== Sys2Proof/Machine/State.lean ====
section
/-! DEFINITION. The state of the engine as plain data: the four architectural items of 10_state.md R20,
the command in progress (payload buffer, unanswered bus sequence), and the ports (00_scope.md R16):
command words and transport answers not yet used, the reset input, the responses and the bus trace. -/

namespace Sys2Proof.Machine

/-- The lifecycle phase (10_state.md R26). The value 3 is unreachable, so it has no constructor. -/
inductive Phase where
  /-- `UNINIT`: after hardware reset, before a successful `OPEN`. -/
  | uninit
  /-- `READY`: after a successful `OPEN`. -/
  | ready
  /-- `DISPOSED`: after `CLOSE`, until hardware reset. -/
  | disposed
  deriving DecidableEq, Repr

/-- The transport's answer to one `BusWrite` (00_scope.md R12). -/
inductive Answer where
  | ok
  | err (e : Byte)
  deriving DecidableEq, Repr

/-- One transaction of the bus trace, with its answer (00_scope.md R12, R16). -/
structure BusEntry where
  target : Byte
  reg : Byte
  data : List Byte
  answer : Answer
  deriving DecidableEq, Repr

/-- The rest of a command from its next `BusWrite` on, as data: what the pseudocode of R100, R101,
R120 and R170 still has to do. A command waiting for the transport is held in this form. -/
inductive Script where
  /-- No write left: set the phase if one is given, then `respond(0)`. -/
  | finish (next : Option Phase)
  /-- `BusWrite(reg, data)`, whose error raises `TransportError` (R12). -/
  | write (reg : Byte) (data : List Byte) (rest : Script)
  /-- `BusWrite(reg, data)`, whose error is discarded (R101). -/
  | attempt (reg : Byte) (data : List Byte) (onOk onErr : Script)
  deriving DecidableEq, Repr

/-- One channel's table as a list of (brightness, byte) cells in canonical form: brightness strictly
rising and below 256, no cell equal to the default table's entry; an unlisted brightness reads as the
default table's entry (10_state.md R31, R32). The form is `Memory.wf`. -/
abbrev Memory := List Host.Cell

/-- No rule of the spec stops the engine with a fault: every error is a response word (60_exceptions.md
R190), and every table address that can be formed exists (20_memory.md R51). So there is no reason to
fault, and no constructor: nothing raises one. -/
inductive Fault where
  deriving DecidableEq, Repr

/-- Why a step is given no meaning. -/
inductive Refusal where
  /-- Raised by an arm of `exec` that gives its instruction no meaning yet. Safe: nothing can be
  proved of such a step. No arm of this model raises it. -/
  | notModelled (mnemonic : String)
  /-- Raised by `driveReset` and by `step` when reset acts while a command is running: payload partly
  received, or a `BusWrite` awaiting its answer. The spec says a model refuses such a run
  (70_reset_and_hazards.md R222, 93 U8). Safe: nothing can be proved of such a step. -/
  | resetDuringCommand
  deriving DecidableEq, Repr

/-- Everything the spec gives the engine. -/
structure State where
  /-- `PHASE` (R26). -/
  phase : Phase
  /-- `MASK`, bit k for channel index k (R27). -/
  mask : BitVec 18
  /-- `BR[0..17]` (R21). -/
  br : Vector Byte 18
  /-- `LUT[0..17]` (R31). -/
  lut : Vector Memory 18
  /-- The words of the packet being received, its header first: the payload buffer (R39, R75).
  Empty between packets. -/
  rx : List Word
  /-- The bus sequence whose first write is issued and not yet answered (R12, R209). None between
  packets. -/
  pending : Option Script
  /-- Words the host has sent and the engine has not taken, first word first (R70). -/
  cmdPort : List Word
  /-- The transport's answers not yet used, first answer first (R12, R16). -/
  answers : List Answer
  /-- The reset input; true while it is asserted (R220). -/
  resetLine : Bool
  /-- The response words produced, oldest first (R16, R85). -/
  responses : List Word
  /-- The bus trace, oldest first (R12, R16). -/
  trace : List BusEntry
  deriving DecidableEq, Repr

/-- The state when the reset input is released, with nothing sent yet (10_state.md R40). Every table
lists nothing, so it reads as the default table (R32). -/
def State.reset : State where
  phase := .uninit
  mask := Config.maskReset
  br := Vector.replicate 18 Config.brReset
  lut := Vector.replicate 18 []
  rx := []
  pending := none
  cmdPort := []
  answers := []
  resetLine := false
  responses := []
  trace := []

/-- The outcome of one step of this machine. -/
abbrev Result := Host.Outcome State Fault Refusal

end Sys2Proof.Machine
end

