-- ==== Sys2Proof/Machine/Flags.lean ====
section
/-! DEFINITION. How a command's outcome is reported. The engine has no flags (10_state.md R25): the one
report of a command is its response word (30_encoding.md R85 to R87), built here, with the error kinds and
their status codes (R86, 60_exceptions.md R191). -/

namespace Sys2Proof.Machine

/-- The error kinds (R86). `invalidConfig` is kept for the software layer's numbering and raised by no
command (60_exceptions.md R192). -/
inductive Err where
  | invalidSpecifier
  | invalidConfig
  | invalidGammaTable
  | invalidValue
  | invalidState
  | transportError (e : Byte)
  | illegalCommand
  deriving DecidableEq, Repr

/-- Status code of a command that returned (R86). -/
def statusOk : BitVec 4 := 0

/-- Status code of an error (R86). -/
def errStatus : Err → BitVec 4
  | .invalidSpecifier => 1
  | .invalidConfig => 2
  | .invalidGammaTable => 3
  | .invalidValue => 4
  | .invalidState => 5
  | .transportError _ => 6
  | .illegalCommand => 7

/-- `DATA` of an error response: the transport's code in bits 7:0, 0 for every other error (R86, R191). -/
def errData : Err → BitVec 24
  | .invalidSpecifier => 0
  | .invalidConfig => 0
  | .invalidGammaTable => 0
  | .invalidValue => 0
  | .invalidState => 0
  | .transportError e => e.setWidth 24
  | .illegalCommand => 0

/-- A response word: `STATUS = [31:28]`, `[27:24] = 0`, `DATA = [23:0]` (R85). -/
def responseWord (status : BitVec 4) (data : BitVec 24) : Word :=
  (status.setWidth 32 <<< 28) ||| data.setWidth 32

/-- The response of a command that returned `data` (R13, R85). -/
def okWord (data : BitVec 24) : Word := responseWord statusOk data

/-- The response of a command that raised `e` (R13, R85). -/
def errWord (e : Err) : Word := responseWord (errStatus e) (errData e)

/-- `DATA` of `IS_SET`: the mask bit, zero-extended (R87, R130). -/
def isSetData (bit : Bool) : BitVec 24 := (BitVec.ofBool bit).setWidth 24

/-- `DATA` of `MASK_READ`: byte 2 above byte 1 above byte 0 of the packed mask (R87, R131). -/
def maskReadData (b0 b1 b2 : Byte) : BitVec 24 :=
  (b2.setWidth 24 <<< 16) ||| (b1.setWidth 24 <<< 8) ||| b0.setWidth 24

/-- `DATA` of `TRANSLATE`: the table entry, zero-extended (R87, R155). -/
def translateData (v : Byte) : BitVec 24 := v.setWidth 24

/-- The numeric value of a phase (10_state.md R26). No port shows it. -/
def phaseCode : Phase → BitVec 2
  | .uninit => 0
  | .ready => 1
  | .disposed => 2

end Sys2Proof.Machine
end

