-- ==== Sys2Proof/Machine/Memory.lean ====
section
/-! DEFINITION. One channel's table as canonical cells: reading an entry (20_memory.md R52), replacing the
whole table (R53), and the canonical form. No command writes a single entry (10_state.md R31). -/

namespace Sys2Proof.Machine

/-- Entry `b` of a table: the listed byte, or `DEF[b]` where nothing is listed (R52, R32). -/
def Memory.read : Memory → Nat → Byte
  | [], b => defEntry b
  | (k, v) :: m, b => if k = b then v else Memory.read m b

/-- The cells of a table whose entries from index `b` on are the given bytes: those that differ from
the default table. -/
def Memory.cellsFrom : Nat → List Byte → Memory
  | _, [] => []
  | b, v :: vs =>
    if v = defEntry b then Memory.cellsFrom (b + 1) vs else (b, v) :: Memory.cellsFrom (b + 1) vs

/-- The whole-table write `LUT[c] <- T`: the table that holds exactly `T` (R53). -/
def Memory.ofTable (t : List Byte) : Memory := Memory.cellsFrom 0 t

/-- The cells have rising indices, the first at least `lo`, all below 256, and none is a default entry. -/
def Memory.wfFrom : Nat → Memory → Bool
  | _, [] => true
  | lo, (k, v) :: m =>
    decide (lo ≤ k) && decide (k < 256) && decide (v ≠ defEntry k) && Memory.wfFrom (k + 1) m

/-- The canonical form: equal tables are equal lists. -/
def Memory.wf (m : Memory) : Bool := Memory.wfFrom 0 m

end Sys2Proof.Machine
end

