-- ==== Sys2Proof/Machine/Ops.lean ====
section
/-! DEFINITION. The named operations over the state: reads and writes of `MASK`, `BR`, `LUT`, `PHASE`
(00_scope.md R10), ending a command (`respond`, `raise`, R13), bus sequences and waiting for the
transport (R12, 60_exceptions.md R209), the phase check (R14) and hardware reset (70_reset_and_hazards.md
R220 to R222). -/

namespace Sys2Proof.Machine

/-! ## State updates -/

/-- `PHASE <- p` (R10). -/
def setPhase (p : Phase) (s : State) : State := { s with phase := p }

/-- `MASK <- m` (R10). -/
def setMask (m : BitVec 18) (s : State) : State := { s with mask := m }

/-- All brightness registers at once; one register is `setBrightness`. -/
def setBr (br : Vector Byte 18) (s : State) : State := { s with br := br }

/-- All tables at once; one table is `writeTable`. -/
def setLut (lut : Vector Memory 18) (s : State) : State := { s with lut := lut }

/-- The command in progress waits with this bus sequence, its first write issued and unanswered. -/
def suspend (sc : Script) (s : State) : State := { s with pending := some sc }

/-- The transaction of one `BusWrite` with its answer; the target is always the chip (R12). -/
def busEntry (reg : Byte) (data : List Byte) (a : Answer) : BusEntry :=
  { target := busTarget, reg := reg, data := data, answer := a }

/-- One answered transaction goes into the bus trace and its answer is used up (R12). -/
def logWrite (reg : Byte) (data : List Byte) (a : Answer) (rest : List Answer) (s : State) : State :=
  { s with answers := rest, trace := s.trace ++ [busEntry reg data a] }

/-- The command ends and its response word is produced (R13, R85). -/
def endCommand (w : Word) (s : State) : State :=
  { s with responses := s.responses ++ [w], pending := none }

/-- What the receiver holds and what the host has sent: `rx` and the command port together. -/
def setPort (rx cmdPort : List Word) (s : State) : State := { s with rx := rx, cmdPort := cmdPort }

/-! ## Tables and brightness registers -/

/-- `LUT[c][b]` (R10, 20_memory.md R52). -/
def readLut (s : State) (c : Chan) (b : Byte) : Byte := Memory.read s.lut[c] b.toNat

/-- `LUT[c] <- T` (20_memory.md R53). -/
def writeTable (c : Chan) (t : List Byte) (s : State) : State :=
  setLut (s.lut.set c (Memory.ofTable t)) s

/-- `BR[k] <- v` (R10). -/
def setBrightness (k : Chan) (v : Byte) (s : State) : State := setBr (s.br.set k v) s

/-! ## Ending a command -/

/-- `respond(d)` (R13). -/
def respond (d : BitVec 24) (s : State) : State := endCommand (okWord d) s

/-- `raise E`: the command ends at once with E's response; nothing is rolled back, nothing is saved and
there is nothing to return from (R13, 60_exceptions.md R190, R204). Every error of every command goes
through this one operation. -/
def raise (e : Err) (s : State) : State := endCommand (errWord e) s

/-- A step that ends its command with `respond(d)`. -/
def answerWith (d : BitVec 24) (s : State) : Result := .next (respond d s)

/-- A step that ends its command with `raise E`. -/
def fail (e : Err) (s : State) : Result := .next (raise e s)

/-- `require_ready()` before the rest of a command (R14). -/
def requireReady (s : State) (body : Result) : Result :=
  if s.phase ≠ .ready then fail .invalidState s else body

/-! ## Bus sequences -/

/-- The optional phase change at the end of a bus sequence. -/
def setPhaseIf (p : Option Phase) (s : State) : State :=
  match p with
  | none => s
  | some q => setPhase q s

/-- Runs a bus sequence as far as the transport's answers allow (R12, 20_memory.md R61). Each write takes
the next answer; `ok` goes on, `err(e)` raises `TransportError(e)` or is discarded, as the sequence says.
With no answer left the command waits, its write issued and unanswered (60_exceptions.md R209). -/
def runScript : Script → State → State
  | .finish p, s => respond 0 (setPhaseIf p s)
  | .write reg data rest, s =>
    match s.answers with
    | [] => suspend (.write reg data rest) s
    | .ok :: as => runScript rest (logWrite reg data .ok as s)
    | .err e :: as => raise (.transportError e) (logWrite reg data (.err e) as s)
  | .attempt reg data onOk onErr, s =>
    match s.answers with
    | [] => suspend (.attempt reg data onOk onErr) s
    | .ok :: as => runScript onOk (logWrite reg data .ok as s)
    | .err e :: as => runScript onErr (logWrite reg data (.err e) as s)

/-- The command goes on with a bus sequence. -/
def transmit (sc : Script) (s : State) : Result := .next (runScript sc s)

/-- A single write with no commit, then `respond(0)` (R102 to R104). -/
def singleScript (reg : Byte) (data : List Byte) : Script := .write reg data (.finish none)

/-- A data write followed by the commit write, then `respond(0)` (20_memory.md R63). -/
def committedScript (reg : Byte) (data : List Byte) : Script :=
  .write reg data (.write regCommit commitData (.finish none))

/-- `emit_mask()`, then `respond(0)` (41_enable_mask.md R120). -/
def emitMask (s : State) : Result := transmit (committedScript regMask (pack s.mask)) s

/-- The 18 gamma-corrected duty values, channel 0 first (43_brightness.md R170). -/
def pwmPayload (s : State) : List Byte := (List.finRange 18).map fun k => readLut s k s.br[k]

/-- `emit_pwm()`, then `respond(0)` (43_brightness.md R170). -/
def emitPwm (s : State) : Result := transmit (committedScript regPwm (pwmPayload s)) s

/-! ## Hardware reset -/

/-- A command is running: payload partly received, or a write awaiting its answer (R222). -/
def busy (s : State) : Bool := !s.rx.isEmpty || s.pending.isSome

/-- The state of R40; the inputs (what the host and the transport drive) are not the engine's to change. -/
def hardReset (s : State) : State :=
  { State.reset with cmdPort := s.cmdPort, answers := s.answers, resetLine := s.resetLine }

/-- The reset input at a level. -/
def setResetLine (level : Bool) (s : State) : State := { s with resetLine := level }

/-- Reset acts, and the reset input is then at `level`: the state takes its reset value (R220); during a
command the run is refused (R222). -/
def resetTo (level : Bool) (s : State) : Result :=
  if busy s then .refused .resetDuringCommand else .next (setResetLine level (hardReset s))

/-- A step while the reset input is asserted: no packet is accepted (R220). -/
def resetStep (s : State) : Result := resetTo s.resetLine s

end Sys2Proof.Machine
end

