-- ==== Sys2Proof/Machine/Operands.lean ====
section
/-! DEFINITION. Operand validity (30_encoding.md R77 to R80): an operand is an unsigned field; the
functions answer the value the command works on, or nothing where the operand is out of range. -/

namespace Sys2Proof.Machine

/-- A channel operand is valid when it is at most 17 (R78). -/
def channelOf (v : Nat) : Option Chan := if h : v < 18 then some ⟨v, h⟩ else none

/-- A vector operand is valid when `SEL[23:18] = 0`; it selects by `SEL[17:0]` (R79). -/
def vectorOf (sel : BitVec 24) : Option (BitVec 18) :=
  if sel.extractLsb' 18 6 = 0 then some (sel.setWidth 18) else none

/-- A brightness operand is valid when it is at most 255 (R80). -/
def brightnessOf (v : BitVec 16) : Option Byte :=
  if v.toNat ≤ 255 then some (v.setWidth 8) else none

/-- The rest of a command on a valid channel; else `InvalidSpecifier` (R78). -/
def withChannel (v : Nat) (s : State) (body : Chan → Result) : Result :=
  match channelOf v with
  | none => fail .invalidSpecifier s
  | some c => body c

/-- The rest of a command on a valid vector; else `InvalidSpecifier` (R79). -/
def withVector (sel : BitVec 24) (s : State) (body : BitVec 18 → Result) : Result :=
  match vectorOf sel with
  | none => fail .invalidSpecifier s
  | some m => body m

/-- The rest of a command on a valid brightness; else `InvalidValue` (R80). -/
def withBrightness (v : BitVec 16) (s : State) (body : Byte → Result) : Result :=
  match brightnessOf v with
  | none => fail .invalidValue s
  | some b => body b

/-- The mask with one bit, that of channel `c`: `1 << c` at 18 bits (R124). -/
def channelBit (c : Chan) : BitVec 18 := 1#18 <<< c.val

/-- A table entry is valid when it is at most 255 (R80). -/
def entryValid (e : Word) : Bool := decide (e.toNat ≤ 255)

/-- The table a valid payload gives: the low byte of each entry (R151). -/
def tableOf (entries : List Word) : List Byte := entries.map fun e => e.setWidth 8

/-- Some pair names a channel above 17 (R173). -/
def anyBadChannel (ps : List BrightPair) : Bool := ps.any fun p => decide (17 < p.channel.toNat)

/-- Some pair holds a value above 255 (R173). -/
def anyBadValue (ps : List BrightPair) : Bool := ps.any fun p => decide (255 < p.value.toNat)

/-- The pairs applied in payload order, so the last one for a channel wins (R173, R174). -/
def applyPairs : List BrightPair → Vector Byte 18 → Vector Byte 18
  | [], br => br
  | p :: ps, br => applyPairs ps (br.setIfInBounds p.channel.toNat (p.value.setWidth 8))

end Sys2Proof.Machine
end

