-- ==== Sys2Proof/Machine/Brightness.lean ====
section
/-! DEFINITION. The brightness commands (43_brightness.md R170 to R176): the brightness registers are
updated first, then all 18 duty values are sent. -/

namespace Sys2Proof.Machine

/-- `BRIGHT_SET ch, val` (R171). -/
def execBrightSet (ch : BitVec 5) (val : BitVec 16) (s : State) : Result :=
  requireReady s (withChannel ch.toNat s fun c =>
    withBrightness val s fun b => emitPwm (setBrightness c b s))

/-- `BRIGHT_BULK pairs`: every channel is checked before any value, every value before any register is
written (R173). -/
def execBrightBulk (pairs : List BrightPair) (s : State) : Result :=
  requireReady s
    (if anyBadChannel pairs then fail .invalidSpecifier s
     else if anyBadValue pairs then fail .invalidValue s
     else emitPwm (setBr (applyPairs pairs s.br) s))

end Sys2Proof.Machine
end

