-- ==== Sys2Proof/Machine/EnableMask.lean ====
section
/-! DEFINITION. The enable-mask commands (41_enable_mask.md R120 to R131). A mask-writing command updates
`MASK` first and then transmits it, always (R121). -/

namespace Sys2Proof.Machine

/-- `CH_ON_V sel` (R122). -/
def execChOnV (sel : BitVec 24) (s : State) : Result :=
  requireReady s (withVector sel s fun m => emitMask (setMask (s.mask ||| m) s))

/-- `CH_OFF_V sel` (R123). -/
def execChOffV (sel : BitVec 24) (s : State) : Result :=
  requireReady s (withVector sel s fun m => emitMask (setMask (s.mask &&& ~~~m) s))

/-- `CH_ON_I ch` (R124). -/
def execChOnI (ch : BitVec 5) (s : State) : Result :=
  requireReady s (withChannel ch.toNat s fun c => emitMask (setMask (s.mask ||| channelBit c) s))

/-- `CH_OFF_I ch` (R125). -/
def execChOffI (ch : BitVec 5) (s : State) : Result :=
  requireReady s (withChannel ch.toNat s fun c => emitMask (setMask (s.mask &&& ~~~channelBit c) s))

/-- `ALL_ON` (R126). -/
def execAllOn (s : State) : Result := requireReady s (emitMask (setMask 0x3FFFF s))

/-- `ALL_OFF` (R127). -/
def execAllOff (s : State) : Result := requireReady s (emitMask (setMask 0x00000 s))

/-- `MASK_LOAD sel` (R128). -/
def execMaskLoad (sel : BitVec 24) (s : State) : Result :=
  requireReady s (withVector sel s fun m => emitMask (setMask m s))

/-- `IS_SET ch` (R130). -/
def execIsSet (ch : BitVec 5) (s : State) : Result :=
  requireReady s (withChannel ch.toNat s fun c => answerWith (isSetData (s.mask.getLsbD c.val)) s)

/-- `MASK_READ` (R131). -/
def execMaskRead (s : State) : Result :=
  requireReady s
    (answerWith (maskReadData (packGroup s.mask 0) (packGroup s.mask 1) (packGroup s.mask 2)) s)

end Sys2Proof.Machine
end

