-- ==== Sys2Proof/Machine/Gamma.lean ====
section
/-! DEFINITION. The gamma-table commands and the lookup (42_gamma.md R150 to R158). None issues a bus
write (R150). -/

namespace Sys2Proof.Machine

/-- `GAMMA_SET ch, entries`: checks in the order channel, length, entries, then one whole-table write
(R151). -/
def execGammaSet (ch : BitVec 5) (entries : List Word) (s : State) : Result :=
  requireReady s (withChannel ch.toNat s fun c =>
    if entries.length ≠ 256 then fail .invalidGammaTable s
    else if !entries.all entryValid then fail .invalidValue s
    else answerWith 0 (writeTable c (tableOf entries) s))

/-- `GAMMA_RESET ch` (R153). -/
def execGammaReset (ch : BitVec 5) (s : State) : Result :=
  requireReady s (withChannel ch.toNat s fun c => answerWith 0 (writeTable c defTable s))

/-- `GAMMA_RESET_ALL` (R154). -/
def execGammaResetAll (s : State) : Result :=
  requireReady s (answerWith 0 ((List.finRange 18).foldl (fun t c => writeTable c defTable t) s))

/-- `TRANSLATE ch, val` (R155). -/
def execTranslate (ch : BitVec 5) (val : BitVec 16) (s : State) : Result :=
  requireReady s (withChannel ch.toNat s fun c =>
    withBrightness val s fun b => answerWith (translateData (readLut s c b)) s)

end Sys2Proof.Machine
end

