-- ==== Sys2Proof/Machine/Lifecycle.lean ====
section
/-! DEFINITION. The lifecycle and output-control commands (40_lifecycle_output.md R100 to R106). -/

namespace Sys2Proof.Machine

/-- The bus sequence of `OPEN`: mask, commit, output on, then `PHASE <- READY` (R100). -/
def openScript (m : BitVec 18) : Script :=
  .write regMask (pack m)
    (.write regCommit commitData (.write regOutEn outOn (.finish (some .ready))))

/-- The last part of `CLOSE`: output off, whatever the answer, then `PHASE <- DISPOSED` (R101). -/
def closeOutput : Script :=
  .attempt regOutEn outOff (.finish (some .disposed)) (.finish (some .disposed))

/-- The bus sequence of `CLOSE`: errors are discarded, a failed mask write skips its commit (R101). -/
def closeScript (m : BitVec 18) : Script :=
  .attempt regMask (pack m) (.attempt regCommit commitData closeOutput closeOutput) closeOutput

/-- `OPEN` (R100). -/
def execOpen (s : State) : Result :=
  if s.phase ≠ .uninit then fail .invalidState s
  else transmit (openScript 0) (setMask 0 s)

/-- `CLOSE` (R101). -/
def execClose (s : State) : Result :=
  if s.phase = .ready then transmit (closeScript 0) (setMask 0 s)
  else answerWith 0 (setPhase .disposed s)

/-- `OUT_ENABLE` (R102). -/
def execOutEnable (s : State) : Result :=
  requireReady s (transmit (singleScript regOutEn outOn) s)

/-- `OUT_DISABLE` (R103). -/
def execOutDisable (s : State) : Result :=
  requireReady s (transmit (singleScript regOutEn outOff) s)

/-- `CHIP_RESET`: no engine state changes (R104). -/
def execChipReset (s : State) : Result :=
  requireReady s (transmit (singleScript regReset resetData) s)

end Sys2Proof.Machine
end

