-- ==== Sys2Proof/Machine/Dispatch.lean ====
section
/-! DEFINITION. One arm per command: each is one call of its meaning. -/

namespace Sys2Proof.Machine

def exec (i : Instr) (s : State) : Host.Outcome State Fault Refusal :=
  match i with
  | .openCmd => Sys2Proof.Machine.execOpen s
  | .closeCmd => Sys2Proof.Machine.execClose s
  | .outEnable => Sys2Proof.Machine.execOutEnable s
  | .outDisable => Sys2Proof.Machine.execOutDisable s
  | .chipReset => Sys2Proof.Machine.execChipReset s
  | .chOnV sel => Sys2Proof.Machine.execChOnV sel s
  | .chOffV sel => Sys2Proof.Machine.execChOffV sel s
  | .chOnI ch => Sys2Proof.Machine.execChOnI ch s
  | .chOffI ch => Sys2Proof.Machine.execChOffI ch s
  | .allOn => Sys2Proof.Machine.execAllOn s
  | .allOff => Sys2Proof.Machine.execAllOff s
  | .maskLoad sel => Sys2Proof.Machine.execMaskLoad sel s
  | .isSet ch => Sys2Proof.Machine.execIsSet ch s
  | .maskRead => Sys2Proof.Machine.execMaskRead s
  | .gammaSet ch entries => Sys2Proof.Machine.execGammaSet ch entries s
  | .gammaReset ch => Sys2Proof.Machine.execGammaReset ch s
  | .gammaResetAll => Sys2Proof.Machine.execGammaResetAll s
  | .translate ch val => Sys2Proof.Machine.execTranslate ch val s
  | .brightSet ch val => Sys2Proof.Machine.execBrightSet ch val s
  | .brightBulk pairs => Sys2Proof.Machine.execBrightBulk pairs s

end Sys2Proof.Machine
end

