-- ==== Sys2Proof/WellFormed.lean ====
section
/-! DEFINITION. Which instructions have an encoding: `LEN` is a 16-bit field, so a packet carries at most
65535 payload words (30_encoding.md R72, R74). Every other operand fits its field by its type. -/

namespace Sys2Proof

/-- The number of payload words fits the 16-bit `LEN` field (R72). -/
def payloadFits (n : Nat) : Bool := decide (n < 65536)

/-- The instruction can be encoded. -/
def Instr.wf : Instr → Bool
  | .openCmd => true
  | .closeCmd => true
  | .outEnable => true
  | .outDisable => true
  | .chipReset => true
  | .chOnV _ => true
  | .chOffV _ => true
  | .chOnI _ => true
  | .chOffI _ => true
  | .allOn => true
  | .allOff => true
  | .maskLoad _ => true
  | .isSet _ => true
  | .maskRead => true
  | .gammaSet _ entries => payloadFits entries.length
  | .gammaReset _ => true
  | .gammaResetAll => true
  | .translate _ _ => true
  | .brightSet _ _ => true
  | .brightBulk pairs => payloadFits pairs.length

end Sys2Proof
end

