-- ==== Sys2Proof/Decode.lean ====
section
/-! DEFINITION. Decoding command packets (30_encoding.md R70 to R76, R81 to R84), then the encoder
written from the same tables. The decoder is total on any list of words: it answers an instruction with
the words left over, asks for more words, or rejects the header by name. -/

namespace Sys2Proof

/-- The six header formats (R74). -/
inductive Format where
  | n | v | c | cv | cl | l
  deriving DecidableEq, Repr

/-- The legal values of the opcode field, named by their rows (R81). -/
inductive Opcode where
  | openCmd | closeCmd | outEnable | outDisable | chipReset
  | chOnV | chOffV | chOnI | chOffI | allOn | allOff | maskLoad | isSet | maskRead
  | gammaSet | gammaReset | gammaResetAll | translate
  | brightSet | brightBulk
  deriving DecidableEq, Repr

/-- Why a header word is illegal. -/
inductive IllegalReason where
  /-- `OP` is none of the 20 values (R82). -/
  | unknownOpcode
  /-- `OP` is legal and a reserved bit of its format is 1 (R83). -/
  | reservedBits
  deriving DecidableEq, Repr

/-- What a header word says on its own (R72). -/
inductive Header where
  /-- The packet is the header alone. -/
  | single (i : Instr)
  /-- A `GAMMA_SET` header: `len` payload words follow. -/
  | gammaSet (ch : BitVec 5) (len : Nat)
  /-- A `BRIGHT_BULK` header: `len` payload words follow. -/
  | brightBulk (len : Nat)
  /-- The header does not decode. -/
  | illegal (why : IllegalReason)
  deriving DecidableEq, Repr

/-- What a sequence of words is. -/
inductive Decoded where
  /-- A whole packet and the words after it. -/
  | packet (i : Instr) (rest : List Word)
  /-- An illegal header and the words after it (R82, R83: the header is consumed alone). -/
  | illegal (why : IllegalReason) (rest : List Word)
  /-- No packet is complete yet: more words are needed (R75). -/
  | wait
  deriving DecidableEq, Repr

/-- All opcodes, in the order of R81. -/
def allOpcodes : List Opcode :=
  [.openCmd, .closeCmd, .outEnable, .outDisable, .chipReset,
   .chOnV, .chOffV, .chOnI, .chOffI, .allOn, .allOff, .maskLoad, .isSet, .maskRead] ++
  [.gammaSet, .gammaReset, .gammaResetAll, .translate, .brightSet, .brightBulk]

/-- The column `OP` of R81. -/
def Opcode.code : Opcode → BitVec 8
  | .openCmd => 0x01
  | .closeCmd => 0x02
  | .outEnable => 0x10
  | .outDisable => 0x11
  | .chipReset => 0x12
  | .chOnV => 0x20
  | .chOffV => 0x21
  | .chOnI => 0x22
  | .chOffI => 0x23
  | .allOn => 0x24
  | .allOff => 0x25
  | .maskLoad => 0x26
  | .isSet => 0x27
  | .maskRead => 0x28
  | .gammaSet => 0x30
  | .gammaReset => 0x31
  | .gammaResetAll => 0x32
  | .translate => 0x33
  | .brightSet => 0x40
  | .brightBulk => 0x41

/-- The column `Format` of R81. -/
def Opcode.format : Opcode → Format
  | .openCmd => .n
  | .closeCmd => .n
  | .outEnable => .n
  | .outDisable => .n
  | .chipReset => .n
  | .chOnV => .v
  | .chOffV => .v
  | .chOnI => .c
  | .chOffI => .c
  | .allOn => .n
  | .allOff => .n
  | .maskLoad => .v
  | .isSet => .c
  | .maskRead => .n
  | .gammaSet => .cl
  | .gammaReset => .c
  | .gammaResetAll => .n
  | .translate => .cv
  | .brightSet => .cv
  | .brightBulk => .l

/-- The bits of `ARG` a format marks `0` (R74). -/
def Format.reserved : Format → BitVec 24
  | .n => 0xFFFFFF
  | .v => 0x000000
  | .c => 0xE0FFFF
  | .cv => 0xE00000
  | .cl => 0xE00000
  | .l => 0xFF0000

/-- `OP = header[31:24]` (R73). -/
def headerOp (h : Word) : BitVec 8 := h.extractLsb' 24 8

/-- `ARG = header[23:0]`, in format V the field `SEL` (R73, R74). -/
def headerArg (h : Word) : BitVec 24 := h.extractLsb' 0 24

/-- `CH = header[20:16]` (R74). -/
def headerCh (h : Word) : BitVec 5 := h.extractLsb' 16 5

/-- `VAL = LEN = header[15:0]` (R74). -/
def headerVal (h : Word) : BitVec 16 := h.extractLsb' 0 16

/-- The opcode with this code, if there is one (R81, R82). -/
def opcodeOf (code : BitVec 8) : Option Opcode := allOpcodes.find? fun o => o.code == code

/-- The operands of a header whose reserved bits are zero (R74, R77). -/
def headerOperands (h : Word) : Opcode → Header
  | .openCmd => .single .openCmd
  | .closeCmd => .single .closeCmd
  | .outEnable => .single .outEnable
  | .outDisable => .single .outDisable
  | .chipReset => .single .chipReset
  | .chOnV => .single (.chOnV (headerArg h))
  | .chOffV => .single (.chOffV (headerArg h))
  | .chOnI => .single (.chOnI (headerCh h))
  | .chOffI => .single (.chOffI (headerCh h))
  | .allOn => .single .allOn
  | .allOff => .single .allOff
  | .maskLoad => .single (.maskLoad (headerArg h))
  | .isSet => .single (.isSet (headerCh h))
  | .maskRead => .single .maskRead
  | .gammaSet => .gammaSet (headerCh h) (headerVal h).toNat
  | .gammaReset => .single (.gammaReset (headerCh h))
  | .gammaResetAll => .single .gammaResetAll
  | .translate => .single (.translate (headerCh h) (headerVal h))
  | .brightSet => .single (.brightSet (headerCh h) (headerVal h))
  | .brightBulk => .brightBulk (headerVal h).toNat

/-- Decoding one header word (R81 to R84). -/
def decodeHeader (h : Word) : Header :=
  match opcodeOf (headerOp h) with
  | none => .illegal .unknownOpcode
  | some o =>
    if headerArg h &&& o.format.reserved = 0 then headerOperands h o
    else .illegal .reservedBits

/-- The pair a `BRIGHT_BULK` payload word holds (R76). -/
def pairOfWord (w : Word) : BrightPair :=
  { channel := w.extractLsb' 16 16, value := w.extractLsb' 0 16 }

/-- Decoding the words on the command port (R72, R75). -/
def decode : List Word → Decoded
  | [] => .wait
  | h :: ws =>
    match decodeHeader h with
    | .single i => .packet i ws
    | .gammaSet ch len =>
      if ws.length < len then .wait else .packet (.gammaSet ch (ws.take len)) (ws.drop len)
    | .brightBulk len =>
      if ws.length < len then .wait
      else .packet (.brightBulk ((ws.take len).map pairOfWord)) (ws.drop len)
    | .illegal why => .illegal why ws

/-- `LEN` of a legal payload-bearing header, 0 for every other header word (R72). -/
def payloadLength (h : Word) : Nat :=
  match decodeHeader h with
  | .single _ => 0
  | .gammaSet _ len => len
  | .brightBulk len => len
  | .illegal _ => 0

/-! ## The encoder -/

/-- Format N: no operand (R74). -/
def argN : BitVec 24 := 0

/-- Formats CV and CL: channel in bits 20:16, value or length in bits 15:0 (R74). -/
def argCV (ch : BitVec 5) (val : BitVec 16) : BitVec 24 :=
  (ch.setWidth 24 <<< 16) ||| val.setWidth 24

/-- Format C: channel in bits 20:16 (R74). -/
def argC (ch : BitVec 5) : BitVec 24 := argCV ch 0

/-- Format L: length in bits 15:0 (R74). -/
def argL (len : BitVec 16) : BitVec 24 := len.setWidth 24

/-- A header word: `OP` above `ARG` (R73). -/
def headerWord (o : Opcode) (arg : BitVec 24) : Word :=
  (o.code.setWidth 32 <<< 24) ||| arg.setWidth 32

/-- The payload word of a pair (R76). -/
def wordOfPair (p : BrightPair) : Word :=
  (p.channel.setWidth 32 <<< 16) ||| p.value.setWidth 32

/-- The words of an instruction's packet (R70, R74, R76, R81). -/
def encode : Instr → List Word
  | .openCmd => [headerWord .openCmd argN]
  | .closeCmd => [headerWord .closeCmd argN]
  | .outEnable => [headerWord .outEnable argN]
  | .outDisable => [headerWord .outDisable argN]
  | .chipReset => [headerWord .chipReset argN]
  | .chOnV sel => [headerWord .chOnV sel]
  | .chOffV sel => [headerWord .chOffV sel]
  | .chOnI ch => [headerWord .chOnI (argC ch)]
  | .chOffI ch => [headerWord .chOffI (argC ch)]
  | .allOn => [headerWord .allOn argN]
  | .allOff => [headerWord .allOff argN]
  | .maskLoad sel => [headerWord .maskLoad sel]
  | .isSet ch => [headerWord .isSet (argC ch)]
  | .maskRead => [headerWord .maskRead argN]
  | .gammaSet ch es => headerWord .gammaSet (argCV ch (BitVec.ofNat 16 es.length)) :: es
  | .gammaReset ch => [headerWord .gammaReset (argC ch)]
  | .gammaResetAll => [headerWord .gammaResetAll argN]
  | .translate ch val => [headerWord .translate (argCV ch val)]
  | .brightSet ch val => [headerWord .brightSet (argCV ch val)]
  | .brightBulk ps => headerWord .brightBulk (argL (BitVec.ofNat 16 ps.length)) :: ps.map wordOfPair

/-! ## One instruction of the opcode table as a number -/

/-- The first `nbits` bits of a packet as whole words: word `j` is bits `32 j + 31` down to `32 j`. -/
def wordsOfBits (nbits w : Nat) : List Word :=
  (List.range ((nbits + 31) / 32)).map fun j => BitVec.ofNat 32 (w >>> (32 * j))

/-- Zero words up to the length the header asks for. -/
def padPacket : List Word → List Word
  | [] => []
  | h :: ws => h :: (ws ++ List.replicate (payloadLength h - ws.length) 0)

/-- The words of the instruction whose first `nbits` bits are `w` and whose further bits are 0. -/
def tableWords (nbits w : Nat) : List Word := padPacket (wordsOfBits nbits w)

/-- What the decoder reads from that instruction, if it is exactly one legal packet. -/
def decodeTableWord (nbits w : Nat) : Option Instr :=
  match decode (tableWords nbits w) with
  | .packet i [] => some i
  | .packet _ (_ :: _) => none
  | .illegal _ _ => none
  | .wait => none

end Sys2Proof
end

