-- ==== Sys2Proof/Machine/Fetch.lean ====
section
/-! DEFINITION. Taking packets off the command port (30_encoding.md R70, R72, R75; 20_memory.md R61). -/

namespace Sys2Proof.Machine

/-- What the words received so far and the words on the port say. -/
def fetch (s : State) : Decoded := decode (s.rx ++ s.cmdPort)

/-- The packet's words are consumed: the receiver is empty and the port holds what follows (R72). -/
def takePacket (rest : List Word) (s : State) : State := setPort [] rest s

/-- The packet is not complete: the words there are taken into the payload buffer and the engine waits
for more (R75, 70_reset_and_hazards.md R235). With no word at all nothing changes (60_exceptions.md R199). -/
def waitForWords (s : State) : State := setPort (s.rx ++ s.cmdPort) [] s

/-- An illegal header: it is consumed alone and answered `IllegalCommand` (R82, R83). -/
def rejectHeader (rest : List Word) (s : State) : Result := fail .illegalCommand (takePacket rest s)

/-- The command in progress goes on where it waits (R12). -/
def resume (sc : Script) (s : State) : Result := transmit sc s

/-- The port holds exactly these words, with the engine free to take them: reset released, nothing
received yet, no command in progress. -/
def loadPort (ws : List Word) (s : State) : State :=
  { s with rx := [], cmdPort := ws, pending := none, resetLine := false }

end Sys2Proof.Machine
end

