-- ==== Sys2Proof/Machine/Step.lean ====
section
/-! DEFINITION. One step of the engine: hardware reset, or the command in progress, or the next packet on
the command port (20_memory.md R61, 70_reset_and_hazards.md R220). -/

namespace Sys2Proof.Machine

/-- One step. A whole command runs in one step when its words and its transport answers are there; where
they are not, the step ends with the engine waiting, and a later step goes on. -/
def step (s : State) : Host.Outcome State Fault Refusal :=
  if s.resetLine then resetStep s
  else
    match s.pending with
    | some sc => resume sc s
    | none =>
      match fetch s with
      | .wait => .next (waitForWords s)
      | .illegal _ rest => rejectHeader rest s
      | .packet i rest => exec i (takePacket rest s)

/-- `s` with the instruction whose first `nbits` bits are `w` (further bits 0) as the next packet on the
command port, ready to be taken by the very next step. -/
def State.withFetchWord (s : State) (nbits w : Nat) : State := loadPort (tableWords nbits w) s

end Sys2Proof.Machine
end

