-- ==== Sys2Proof/Machine/Link.lean ====
section
/-! DEFINITION. A 32-bit word carried over a link one byte wide, in an order of its four bytes that the spec
leaves open: the parameter `CMD_LINK_ORDER`, here an argument (30_encoding.md R71). Position `j` of the
order names the byte sent `j`-th; byte 0 is bits 7:0 of the word. No rule of the engine depends on it. -/

namespace Sys2Proof.Machine

/-- The order of the four bytes of a word on the link. -/
abbrev LinkOrder := List (Fin 4)

/-- Byte `i` of a word. -/
def wordByte (w : Word) (i : Fin 4) : Byte := w.extractLsb' (8 * i.val) 8

/-- The bytes of a word in the order the link carries them. -/
def wordToLink (order : LinkOrder) (w : Word) : List Byte := order.map (wordByte w)

/-- The word whose bytes arrived in that order: each byte put back in its place. -/
def wordOfLink : LinkOrder → List Byte → Word
  | i :: is, b :: bs => (b.setWidth 32 <<< (8 * i.val)) ||| wordOfLink is bs
  | [], _ => 0
  | _ :: _, [] => 0

end Sys2Proof.Machine
end

