-- ==== Sys2Proof/Machine/Pseudo.lean ====
section
/-! DEFINITION. The pseudo-instructions and the assembler text of the spec (30_encoding.md R89, R90, R92).
They are other spellings of core commands; the engine never sees them. -/

namespace Sys2Proof.Machine

/-- `REFRESH` is `BRIGHT_BULK` with no pair (R90). -/
def refresh : Instr := .brightBulk []

/-- `GAMMA_IDENTITY ch` is `GAMMA_SET ch, 0, 1, ..., 255` (R90). -/
def gammaIdentity (ch : BitVec 5) : Instr :=
  .gammaSet ch ((List.range 256).map fun n => BitVec.ofNat 32 n)

/-- The OR of `1 << (n - 1)` over 1-based ordinals; an ordinal with no bit in `SEL` has no encoding
(R90, R92). -/
def selOfOrdinals : List Nat → Option (BitVec 24)
  | [] => some 0
  | n :: ns =>
    match selOfOrdinals ns with
    | none => none
    | some sel => if 1 ≤ n ∧ n ≤ 24 then some ((1#24 <<< (n - 1)) ||| sel) else none

/-- `CH_ON_ORD n1, n2, ...` (R90). -/
def chOnOrd (ns : List Nat) : Option Instr := (selOfOrdinals ns).map .chOnV

/-- `CH_OFF_ORD n1, n2, ...` (R90). -/
def chOffOrd (ns : List Nat) : Option Instr := (selOfOrdinals ns).map .chOffV

/-- The mnemonic of a command (R81). -/
def mnemonic : Instr → String
  | .openCmd => "OPEN"
  | .closeCmd => "CLOSE"
  | .outEnable => "OUT_ENABLE"
  | .outDisable => "OUT_DISABLE"
  | .chipReset => "CHIP_RESET"
  | .chOnV _ => "CH_ON_V"
  | .chOffV _ => "CH_OFF_V"
  | .chOnI _ => "CH_ON_I"
  | .chOffI _ => "CH_OFF_I"
  | .allOn => "ALL_ON"
  | .allOff => "ALL_OFF"
  | .maskLoad _ => "MASK_LOAD"
  | .isSet _ => "IS_SET"
  | .maskRead => "MASK_READ"
  | .gammaSet _ _ => "GAMMA_SET"
  | .gammaReset _ => "GAMMA_RESET"
  | .gammaResetAll => "GAMMA_RESET_ALL"
  | .translate _ _ => "TRANSLATE"
  | .brightSet _ _ => "BRIGHT_SET"
  | .brightBulk _ => "BRIGHT_BULK"

/-- A payload in braces, its elements separated by commas (R89). -/
def bracedText (elems : List String) : String :=
  String.singleton (Char.ofNat 123) ++ " " ++ ", ".intercalate elems ++ " " ++
    String.singleton (Char.ofNat 125)

/-- The operands of a command, integers in decimal (R89). -/
def operandTexts : Instr → List String
  | .openCmd => []
  | .closeCmd => []
  | .outEnable => []
  | .outDisable => []
  | .chipReset => []
  | .chOnV sel => [toString sel.toNat]
  | .chOffV sel => [toString sel.toNat]
  | .chOnI ch => [toString ch.toNat]
  | .chOffI ch => [toString ch.toNat]
  | .allOn => []
  | .allOff => []
  | .maskLoad sel => [toString sel.toNat]
  | .isSet ch => [toString ch.toNat]
  | .maskRead => []
  | .gammaSet ch es => [toString ch.toNat, bracedText (es.map fun e => toString e.toNat)]
  | .gammaReset ch => [toString ch.toNat]
  | .gammaResetAll => []
  | .translate ch val => [toString ch.toNat, toString val.toNat]
  | .brightSet ch val => [toString ch.toNat, toString val.toNat]
  | .brightBulk ps =>
    [bracedText (ps.map fun p => toString p.channel.toNat ++ ":" ++ toString p.value.toNat)]

/-- One command as a line of assembler text (R89). -/
def asmText (i : Instr) : String :=
  match operandTexts i with
  | [] => mnemonic i
  | o :: os => mnemonic i ++ " " ++ ", ".intercalate (o :: os)

end Sys2Proof.Machine
end

