-- ==== Sys2Proof/Machine/Environment.lean ====
section
/-! DEFINITION. What the other two agents do to the engine's inputs (00_scope.md R15, 70_reset_and_hazards.md
R238): the host sends words and drives the reset input, the transport answers writes. These happen
between steps; `step` never changes an input except to use it up. -/

namespace Sys2Proof.Machine

/-- The host puts words on the command port, after those it sent before (R70). -/
def hostSends (ws : List Word) (s : State) : State := { s with cmdPort := s.cmdPort ++ ws }

/-- The transport gives its next answer (R12). -/
def transportAnswers (a : Answer) (s : State) : State := { s with answers := s.answers ++ [a] }

/-- The host asserts or releases the reset input (R220). Reset acts at once: from the moment it is asserted
to the moment it is released the state is that of R40, with or without a step between. A released input
that stays released changes nothing. During a command the run is refused (R222). -/
def driveReset (level : Bool) (s : State) : Result :=
  if level || s.resetLine then resetTo level s else .next s

/-- The states of the runs of this spec: reset, then steps of the engine and moves of the host and the
transport in any order: all that the column "may" of R238 admits, and nothing after a reset during a
command. The duties of the column "must" are premises of a run, in Machine/Run.lean. -/
inductive Reachable : State → Prop where
  | reset : Reachable State.reset
  | step {s t : State} : Reachable s → step s = .next t → Reachable t
  | words {s : State} (ws : List Word) : Reachable s → Reachable (hostSends ws s)
  | answer {s : State} (a : Answer) : Reachable s → Reachable (transportAnswers a s)
  | line {s t : State} (level : Bool) : Reachable s → driveReset level s = .next t → Reachable t

end Sys2Proof.Machine
end

