-- ==== Sys2Proof/Machine/Run.lean ====
section
/-! DEFINITION. Runs of the whole system: the moves of its three agents in order (00_scope.md R15), the duties
of the host and the transport as named premises (70_reset_and_hazards.md R238), and the end of a run with
its result (R239). -/

namespace Sys2Proof.Machine

/-- One move of one agent (R15). -/
inductive Move where
  /-- The engine takes a step. -/
  | step
  /-- The host sends words. -/
  | send (ws : List Word)
  /-- The host takes the oldest response it has not taken. -/
  | take
  /-- The host drives the reset input. -/
  | line (level : Bool)
  /-- The transport answers. -/
  | answer (a : Answer)
  deriving DecidableEq, Repr

/-- The system in a run: the engine with its ports, and how many of its responses the host has taken. -/
structure World where
  engine : State
  taken : Nat
  deriving DecidableEq, Repr

/-- The start of a run: the engine right after reset (R239). -/
def World.start : World := { engine := State.reset, taken := 0 }

/-- The world with the engine in its next state; after a reset there is no response left to have been
taken. A refusal of the engine's is the run's. -/
def carry (w : World) (r : Result) : Host.Outcome World Fault Refusal :=
  match r with
  | .next s => .next { engine := s, taken := min w.taken s.responses.length }
  | .fault f => .fault f
  | .refused f => .refused f

/-- What one move does. -/
def makeMove (m : Move) (w : World) : Host.Outcome World Fault Refusal :=
  match m with
  | .step => carry w (step w.engine)
  | .send ws => .next { w with engine := hostSends ws w.engine }
  | .take => .next { w with taken := min (w.taken + 1) w.engine.responses.length }
  | .line level => carry w (driveReset level w.engine)
  | .answer a => .next { w with engine := transportAnswers a w.engine }

/-- A sequence of moves, up to the first that is given no meaning. -/
def play : List Move → World → Host.Outcome World Fault Refusal
  | [], w => .next w
  | m :: ms, w =>
    match makeMove m w with
    | .next v => play ms v
    | .fault f => .fault f
    | .refused r => .refused r

/-! ## The duties of R238, each of one move -/

/-- The words the engine has of the current packet once the host has sent `ws`. -/
def streamAfter (ws : List Word) (s : State) : List Word := s.rx ++ s.cmdPort ++ ws

/-- No more words than one packet has. -/
def withinOnePacket (ws : List Word) : Bool :=
  match decode ws with
  | .wait => true
  | .packet _ rest => rest.isEmpty
  | .illegal _ rest => rest.isEmpty

/-- The host takes each response before sending the next packet. -/
def takesResponseFirst (m : Move) (w : World) : Bool :=
  match m with
  | .send _ => w.engine.pending.isNone && w.taken == w.engine.responses.length
  | .step | .take | .line _ | .answer _ => true

/-- The host sends no more than `LEN` payload words after a legal payload-bearing header, and none after an
illegal one (R235). A host that sends fewer leaves the run unfinished: `runOver` is then false. -/
def sendsWholePacket (m : Move) (w : World) : Bool :=
  match m with
  | .send ws => withinOnePacket (streamAfter ws w.engine)
  | .step | .take | .line _ | .answer _ => true

/-- The first packet after a reset is `OPEN`. -/
def sendsOpenFirst (m : Move) (w : World) : Bool :=
  match m with
  | .send ws =>
    !w.engine.responses.isEmpty || (streamAfter ws w.engine).head? ∈ [none, some 0x01000000#32]
  | .step | .take | .line _ | .answer _ => true

/-- The host asserts reset only between packets: no header sent, none being executed (R222). -/
def resetsBetweenPackets (m : Move) (w : World) : Bool :=
  match m with
  | .line level => !level || (w.engine.cmdPort.isEmpty && !busy w.engine)
  | .step | .send _ | .take | .answer _ => true

/-- The transport answers an outstanding `BusWrite` only, and not twice. A transport that does not answer
leaves the run unfinished: `runOver` is then false. -/
def answersOnce (m : Move) (w : World) : Bool :=
  match m with
  | .answer _ => w.engine.pending.isSome && w.engine.answers.isEmpty
  | .step | .send _ | .take | .line _ => true

/-- A duty is kept by every move of a sequence. -/
def keptAlong (duty : Move → World → Bool) : List Move → World → Bool
  | [], _ => true
  | m :: ms, w =>
    duty m w &&
      match makeMove m w with
      | .next v => keptAlong duty ms v
      | .fault _ => false
      | .refused _ => false

/-- A run whose host and transport keep their duties: the named premises of R238. -/
structure DutifulRun (ms : List Move) (w : World) : Prop where
  /-- The moves lead from reset to `w`. -/
  plays : play ms World.start = .next w
  takesResponseFirst : keptAlong takesResponseFirst ms World.start = true
  sendsWholePacket : keptAlong sendsWholePacket ms World.start = true
  sendsOpenFirst : keptAlong sendsOpenFirst ms World.start = true
  resetsBetweenPackets : keptAlong resetsBetweenPackets ms World.start = true
  answersOnce : keptAlong answersOnce ms World.start = true

/-! ## The end of a run -/

/-- The run is over: reset is released, every word sent has been taken, and the last packet has its response,
so no write is outstanding and the payload buffer is empty (R239). -/
def runOver (s : State) : Bool := !s.resetLine && s.cmdPort.isEmpty && !busy s

/-- The engine is stuck until the transport answers: the run is kept and is not final (R238, U7). -/
def awaitsTransport (s : State) : Bool := s.pending.isSome && s.answers.isEmpty

/-- The result of a run: the final state, the response sequence and the bus trace (R239). -/
structure RunResult where
  final : State
  responses : List Word
  trace : List BusEntry
  deriving DecidableEq, Repr

/-- The result of a run that has come to `s`, if it is over. -/
def runResult (s : State) : Option RunResult :=
  if runOver s then some { final := s, responses := s.responses, trace := s.trace } else none

end Sys2Proof.Machine
end

