-- ==== Sys2Proof/Safety.lean ====
section
/-! DEFINITION. What every state of a run looks like, in the terms claims use: the tables' canonical form,
the receiver, the responses (30_encoding.md R85 to R87), the bus writes (20_memory.md R56, R58), the commit
after every data write (R63), and the lifecycle (40_lifecycle_output.md R105). `Invariant` puts them
together. -/

namespace Sys2Proof.Machine

/-! ## Which commands write which state -/

/-- The mask-writing commands of 41_enable_mask.md. -/
def writesMask : Instr → Bool
  | .chOnV _ | .chOffV _ | .chOnI _ | .chOffI _ | .allOn | .allOff | .maskLoad _ => true
  | .openCmd | .closeCmd | .outEnable | .outDisable | .chipReset | .isSet _ | .maskRead => false
  | .gammaSet _ _ | .gammaReset _ | .gammaResetAll | .translate _ _ => false
  | .brightSet _ _ | .brightBulk _ => false

/-- The table-writing commands of 42_gamma.md. -/
def writesTables : Instr → Bool
  | .gammaSet _ _ | .gammaReset _ | .gammaResetAll => true
  | .openCmd | .closeCmd | .outEnable | .outDisable | .chipReset | .isSet _ | .maskRead => false
  | .chOnV _ | .chOffV _ | .chOnI _ | .chOffI _ | .allOn | .allOff | .maskLoad _ => false
  | .translate _ _ | .brightSet _ _ | .brightBulk _ => false

/-- The brightness commands of 43_brightness.md. -/
def writesBrightness : Instr → Bool
  | .brightSet _ _ | .brightBulk _ => true
  | .openCmd | .closeCmd | .outEnable | .outDisable | .chipReset | .isSet _ | .maskRead => false
  | .chOnV _ | .chOffV _ | .chOnI _ | .chOffI _ | .allOn | .allOff | .maskLoad _ => false
  | .gammaSet _ _ | .gammaReset _ | .gammaResetAll | .translate _ _ => false

/-! ## Responses -/

/-- `STATUS = resp[31:28]` (R85). -/
def responseStatus (w : Word) : BitVec 4 := w.extractLsb' 28 4

/-- `DATA = resp[23:0]` (R85). -/
def responseData (w : Word) : BitVec 24 := w.extractLsb' 0 24

/-- A response the engine may produce: bits 27:24 are 0, the status is one of 0, 1, 3 to 7, and `DATA` is
0 on every error but `TransportError`, where its bits 23:8 are 0 (R85, R86, 60_exceptions.md R192). -/
def responseLegal (w : Word) : Bool :=
  decide (w.extractLsb' 24 4 = 0) &&
  (decide (responseStatus w = 0) ||
   (decide (responseStatus w = 6) && decide ((responseData w).extractLsb' 8 16 = 0)) ||
   (decide (responseStatus w ∈ [1, 3, 4, 5, 7]) && decide (responseData w = 0)))

/-! ## Bus writes -/

/-- One of the writes of R58: the register with a payload the engine may write there. -/
def busWriteLegal (reg : Byte) (data : List Byte) : Bool :=
  (decide (reg = 0x00) && (decide (data = [0x01]) || decide (data = [0x00]))) ||
  (decide (reg = 0x01) && decide (data.length = 18)) ||
  (decide (reg = 0x13) && decide (data.length = 3) && data.all fun b => decide (b.toNat ≤ 0x3F)) ||
  (decide (reg = 0x16) && decide (data = [0xFF])) ||
  (decide (reg = 0x17) && decide (data = [0xFF]))

/-- A mask or PWM write, which a commit must follow once it is answered `ok` (R63). -/
def isDataWrite (reg : Byte) : Bool := decide (reg = 0x13) || decide (reg = 0x01)

/-- After this transaction a commit is owed. -/
def entryOwes (e : BusEntry) : Bool := isDataWrite e.reg && decide (e.answer = .ok)

/-- The commit write comes exactly after each data write answered `ok`, and nowhere else: `owes` says
whether one is owed before the list (R63, R57). -/
def commitOrder : Bool → List BusEntry → Bool
  | _, [] => true
  | owes, e :: es => (decide (e.reg = 0x16) == owes) && commitOrder (entryOwes e) es

/-- Whether a commit is owed after the list. -/
def owesAfter : Bool → List BusEntry → Bool
  | owes, [] => owes
  | _, e :: es => owesAfter (entryOwes e) es

/-- A bus sequence that keeps the commit order and writes only what R58 allows, whatever the answers. -/
def scriptDisciplined : Bool → Script → Bool
  | owes, .finish _ => !owes
  | owes, .write reg data rest =>
    busWriteLegal reg data && (decide (reg = 0x16) == owes) && scriptDisciplined (isDataWrite reg) rest
  | owes, .attempt reg data onOk onErr =>
    busWriteLegal reg data && (decide (reg = 0x16) == owes) &&
      scriptDisciplined (isDataWrite reg) onOk && scriptDisciplined false onErr

/-- Every end of the sequence makes this phase change. -/
def scriptEndsIn (p : Option Phase) : Script → Bool
  | .finish q => decide (q = p)
  | .write _ _ rest => scriptEndsIn p rest
  | .attempt _ _ onOk onErr => scriptEndsIn p onOk && scriptEndsIn p onErr

/-- The sequence still has a write. -/
def scriptWrites : Script → Bool
  | .finish _ => false
  | .write _ _ _ => true
  | .attempt _ _ _ _ => true

/-! ## The lifecycle -/

/-- The command in progress fits the phase: `OPEN` runs in `UNINIT`, every other one in `READY`, and
only `OPEN` and `CLOSE` change the phase at their end (R105). -/
def pendingFitsPhase (phase : Phase) (sc : Script) : Bool :=
  scriptWrites sc &&
  ((decide (phase = .uninit) && scriptEndsIn (some .ready) sc) ||
   (decide (phase = .ready) && (scriptEndsIn none sc || scriptEndsIn (some .disposed) sc)))

/-- Where a phase stands in `UNINIT`, `READY`, `DISPOSED` (10_state.md R26). -/
def phaseRank (p : Phase) : Nat := (phaseCode p).toNat

/-! ## The invariant -/

/-- What holds of the command in progress, if there is one. -/
def pendingLegal (s : State) : Bool :=
  match s.pending with
  | none => !owesAfter false s.trace
  | some sc =>
    s.rx.isEmpty && pendingFitsPhase s.phase sc && scriptDisciplined (owesAfter false s.trace) sc

/-- What every state of a run satisfies. -/
structure Invariant (s : State) : Prop where
  /-- Every table is in canonical form: the model's own, log entry 8 (DESIGN CHOICE). -/
  tables : ∀ c : Chan, Memory.wf s.lut[c] = true
  /-- What has been received is no whole packet yet: a whole packet is taken at once, log entry 4 (DESIGN
  CHOICE). -/
  receiving : decode s.rx = .wait
  /-- Every response has a status and data the engine may produce (R85, R86). -/
  responses : ∀ w ∈ s.responses, responseLegal w = true
  /-- Every transaction goes to the chip and is one of R58's. -/
  writes : ∀ e ∈ s.trace, e.target = 0x54 ∧ busWriteLegal e.reg e.data = true
  /-- Every data write answered `ok` is followed at once by the commit, and no commit stands alone (R63). -/
  commits : commitOrder false s.trace = true
  /-- The command in progress is one the engine runs, in the phase it runs in, and owes what the trace owes. -/
  pending : pendingLegal s = true
  /-- While the reset input is asserted the state is that of R40. R220 says so of the moment of release; that it
  holds from assertion on is log entry 6 (DESIGN CHOICE). -/
  held : s.resetLine = true → s = hardReset s

end Sys2Proof.Machine
end

