-- ==== Sys2Proof/Certificates/Slice0/Obligations.lean ====
section
/-! DEFINITION. The statements for the provers. Each docstring names the rule of spec/ it formalises. The
helpers under `Sys2Proof.Spec` write down, in the rules' own literals, what a command leaves behind. The statement of one command begins with the words its rule encodes it in. -/

open Sys2Proof Sys2Proof.Machine

namespace Sys2Proof.Spec

/-- `s` after its command has ended with response word `w`: one response more, nothing in progress (R85). -/
def ended (s : State) (w : Word) : State :=
  { s with responses := s.responses ++ [w], pending := none }

/-- `s` after the transactions `es`, with the answers `as` left (R12). -/
def sent (s : State) (as : List Answer) (es : List BusEntry) : State :=
  { s with answers := as, trace := s.trace ++ es }

/-- One transaction: the target is always `0x54` (R12, R30). -/
def wr (reg : Byte) (data : List Byte) (a : Answer) : BusEntry :=
  { target := 0x54, reg := reg, data := data, answer := a }

/-- The response word of `TransportError(e)`: `0x600000` above the transport's code (R86). -/
def transportErrorWord (e : Byte) : Word := 0x60000000 ||| e.setWidth 32

/-- In state `s` the command does one bus write and no commit: answered `ok` it responds 0, answered
`err(e)` it raises `TransportError(e)`; nothing else of the state changes. -/
def SingleWrite (i : Instr) (s : State) (reg : Byte) (data : List Byte) : Prop :=
  (∀ as, s.answers = .ok :: as →
    exec i s = .next (ended (sent s as [wr reg data .ok]) 0x00000000)) ∧
  (∀ e as, s.answers = .err e :: as →
    exec i s = .next (ended (sent s as [wr reg data (.err e)]) (transportErrorWord e)))

/-- In state `s` the command makes the state `u`, then does the data write and the commit write: both
answered `ok` it responds 0; the data write answered `err(e)` it raises `TransportError(e)` with the
commit skipped; the commit answered `err(e)` it raises `TransportError(e)`; `u` is kept throughout. -/
def WriteThenCommit (i : Instr) (s u : State) (reg : Byte) (data : List Byte) : Prop :=
  (∀ as, s.answers = .ok :: .ok :: as →
    exec i s = .next (ended (sent u as [wr reg data .ok, wr 0x16 [0xFF] .ok]) 0x00000000)) ∧
  (∀ e as, s.answers = .err e :: as →
    exec i s = .next (ended (sent u as [wr reg data (.err e)]) (transportErrorWord e))) ∧
  (∀ e as, s.answers = .ok :: .err e :: as →
    exec i s = .next
      (ended (sent u as [wr reg data .ok, wr 0x16 [0xFF] (.err e)]) (transportErrorWord e)))

/-- `[LUT[k][BR[k]] for k in 0..17]` in state `u` (R170). -/
def correctedBytes (u : State) : List Byte := (List.finRange 18).map fun k => readLut u k u.br[k]

/-- The columns match and mask of R81. -/
def rows : List (Word × Word) :=
  [(0x01000000, 0xFFFFFFFF), (0x02000000, 0xFFFFFFFF), (0x10000000, 0xFFFFFFFF),
   (0x11000000, 0xFFFFFFFF), (0x12000000, 0xFFFFFFFF), (0x20000000, 0xFF000000),
   (0x21000000, 0xFF000000), (0x22000000, 0xFFE0FFFF), (0x23000000, 0xFFE0FFFF),
   (0x24000000, 0xFFFFFFFF), (0x25000000, 0xFFFFFFFF), (0x26000000, 0xFF000000)] ++
  [(0x27000000, 0xFFE0FFFF), (0x28000000, 0xFFFFFFFF), (0x30000000, 0xFFE00000),
   (0x31000000, 0xFFE0FFFF), (0x32000000, 0xFFFFFFFF), (0x33000000, 0xFFE00000),
   (0x40000000, 0xFFE00000), (0x41000000, 0xFFFF0000)]

/-- A legal header of `GAMMA_SET` or `BRIGHT_BULK`: the opcode, with the format's reserved bits 0 (R72). -/
def bearsPayload (h : Word) : Prop :=
  h &&& 0xFFE00000 = 0x30000000 ∨ h &&& 0xFFFF0000 = 0x41000000

/-- `t` is the state of R40 with the reset input at `level`, and the words and answers of `s` still to come. -/
def IsResetOf (s : State) (level : Bool) (t : State) : Prop :=
  t.phase = .uninit ∧ t.mask = 0x00000 ∧ (∀ k : Chan, t.br[k] = 0x00) ∧
  (∀ (c : Chan) (b : Byte), readLut t c b = defEntry b.toNat) ∧ t.rx = [] ∧ t.pending = none ∧
  t.responses = [] ∧ t.trace = [] ∧ t.cmdPort = s.cmdPort ∧ t.answers = s.answers ∧ t.resetLine = level

/-- An outcome with its next state changed by `f`. -/
def mapNext (f : State → State) : Result → Result
  | .next t => .next (f t)
  | .fault e => .fault e
  | .refused r => .refused r

end Sys2Proof.Spec

open Sys2Proof.Spec

/-! ## Encoding -/

/-- R72 to R76, R81: decoding the words of a well-formed instruction gives it back, with every operand at
every value, and leaves the words after it. -/
def Obligations.DecodingAnEncodedInstructionGivesItBack : Prop :=
  ∀ (i : Instr) (rest : List Word), i.wf = true → decode (encode i ++ rest) = .packet i rest

/-- R72 to R76, R81, the other direction: a packet the decoder reads is well formed, and its words are
exactly the words encoded for it. -/
def Obligations.EncodingADecodedPacketGivesItsWords : Prop :=
  ∀ (ws : List Word) (i : Instr) (rest : List Word),
    decode ws = .packet i rest → i.wf = true ∧ encode i ++ rest = ws

/-- The encodings R88 and the family rules write out. -/
def Obligations.WorkedEncodingsDecode : Prop :=
  decode [0x01000000] = .packet .openCmd [] ∧
  decode [0x20000001] = .packet (.chOnV 1) [] ∧
  decode [0x220D0000] = .packet (.chOnI 13) [] ∧
  decode [0x26021843] = .packet (.maskLoad 0x21843) [] ∧
  decode [0x27110000] = .packet (.isSet 17) [] ∧
  decode [0x330000FF] = .packet (.translate 0 255) [] ∧
  decode [0x4000012C] = .packet (.brightSet 0 300) [] ∧
  decode [0x30120002, 0x12C, 5] = .packet (.gammaSet 18 [300, 5]) [] ∧
  decode [0x41000002, 0x001100C8, 0x00000040] = .packet (.brightBulk [⟨17, 200⟩, ⟨0, 64⟩]) [] ∧
  decode [0x10000001] = .illegal .reservedBits [] ∧
  decode [0x00000000] = .illegal .unknownOpcode []

/-- R82, R83, R84: a header word is illegal, and consumed alone, exactly when no row of R81 selects it. -/
def Obligations.HeaderIsIllegalExactlyWhenNoRowSelectsIt : Prop :=
  ∀ (h : Word) (ws : List Word),
    (∀ r ∈ rows, h &&& r.2 ≠ r.1) ↔ ∃ why, decode (h :: ws) = .illegal why ws

/-- R72: a legal `GAMMA_SET` or `BRIGHT_BULK` header makes a packet of `1 + LEN` words (fewer words are no
packet yet); every other header word, the illegal ones included, is a packet alone. -/
def Obligations.PacketLengthIsToldByTheHeaderAlone : Prop :=
  ∀ (h : Word) (ws : List Word),
    (bearsPayload h → ws.length < (h.extractLsb' 0 16).toNat → decode (h :: ws) = .wait) ∧
    (bearsPayload h → (h.extractLsb' 0 16).toNat ≤ ws.length →
      ∃ i, decode (h :: ws) = .packet i (ws.drop (h.extractLsb' 0 16).toNat)) ∧
    (¬ bearsPayload h →
      (∃ i, decode (h :: ws) = .packet i ws) ∨ ∃ why, decode (h :: ws) = .illegal why ws)

/-! ## Steps -/

/-- R61, R70, R72: with reset released and no command in progress, when the words received and the words
on the port begin with the packet of an instruction, the step is that instruction's meaning on the state
whose receiver is empty and whose port holds the words after the packet. -/
def Obligations.StepRunsTheDecodedPacket : Prop :=
  ∀ (s : State) (i : Instr) (rest : List Word),
    s.resetLine = false → s.pending = none → decode (s.rx ++ s.cmdPort) = .packet i rest →
      step s = exec i { s with rx := [], cmdPort := rest }

/-- R82, R83, R200: an illegal header is answered `0x70000000`, whatever the phase; the header alone is
consumed, no bus write is issued and nothing else changes. -/
def Obligations.StepAnswersAnIllegalHeader : Prop :=
  ∀ (s : State) (why : IllegalReason) (rest : List Word),
    s.resetLine = false → s.pending = none → decode (s.rx ++ s.cmdPort) = .illegal why rest →
      step s = .next (ended { s with rx := [], cmdPort := rest } 0x70000000)

/-- R75, R235, R199, R209: an incomplete packet is taken into the buffer and the engine waits; with no word
at all nothing happens; with a write unanswered nothing happens and no packet is accepted. That all the words
present, the header included, move into the buffer in one step is the model's choice: log entry 4, DESIGN
CHOICE. -/
def Obligations.StepWaitsForWordsAndAnswers : Prop :=
  ∀ s : State, s.resetLine = false →
    (s.pending = none → decode (s.rx ++ s.cmdPort) = .wait →
      step s = .next { s with rx := s.rx ++ s.cmdPort, cmdPort := [] }) ∧
    (s.pending = none → s.rx = [] → s.cmdPort = [] → step s = .next s) ∧
    (∀ sc, s.pending = some sc → scriptWrites sc = true → s.answers = [] → step s = .next s)

/-- R12, R61: waiting for the transport loses nothing. A command that has used up the answers `xs` and
waits, given the answers `ys` later, makes in its next step what it would have made with `xs ++ ys` at
once. -/
def Obligations.WaitingForAnswersChangesNothing : Prop :=
  ∀ (i : Instr) (s t : State) (ys : List Answer),
    s.resetLine = false → exec i s = .next t → t.pending.isSome = true →
      step { t with answers := ys } = exec i { s with answers := s.answers ++ ys }

/-- R220, R222: a step while the reset input is asserted accepts no packet and gives the state of R40;
asserting the input and releasing it each give the state of R40, with or without a step between; a released
input that stays released changes nothing; while a command is running reset is refused. That reset acts from
its assertion on, and empties trace and responses, is the model's choice: log entry 6, DESIGN CHOICE. When a
command counts as running is log entry 7, DEDUCED. -/
def Obligations.ResetInputRestoresTheResetState : Prop :=
  ∀ s : State,
    (s.resetLine = true →
      (s.rx = [] → s.pending = none → ∃ t, step s = .next t ∧ IsResetOf s true t) ∧
      (s.rx ≠ [] ∨ s.pending ≠ none → step s = .refused .resetDuringCommand)) ∧
    (∀ level : Bool, level = true ∨ s.resetLine = true →
      (s.rx = [] → s.pending = none → ∃ t, driveReset level s = .next t ∧ IsResetOf s level t) ∧
      (s.rx ≠ [] ∨ s.pending ≠ none → driveReset level s = .refused .resetDuringCommand)) ∧
    (s.resetLine = false → driveReset false s = .next s)

/-- R40: the state after hardware reset. The values of `MASK` and `BR` are the model's choice where they could
be parameters: log entry 9, DESIGN CHOICE. -/
def Obligations.ResetStateIsThatOfTheTable : Prop :=
  State.reset.phase = .uninit ∧ State.reset.mask = 0x00000 ∧ (∀ k : Chan, State.reset.br[k] = 0x00) ∧
    (∀ (c : Chan) (b : Byte), readLut State.reset c b = defEntry b.toNat) ∧
    State.reset.rx = [] ∧ State.reset.trace = [] ∧ State.reset.responses = []

/-- R34: `DEF[0] = 0`, and for i from 1 to 255 `DEF[i]` is the largest n with `n^255 ≤ 255^(i-1)`, the floor
of `255^((i-1)/255)`. -/
def Obligations.DefaultTableIsTheFloorOfThePower : Prop :=
  defEntry 0 = 0 ∧
  ∀ i, 1 ≤ i → i ≤ 255 →
    (defEntry i).toNat ^ 255 ≤ 255 ^ (i - 1) ∧ 255 ^ (i - 1) < ((defEntry i).toNat + 1) ^ 255

/-- R129, R11: `MASK[k]` is bit `k mod 6` of byte `k div 6`, bits 7:6 of every byte are 0, the mask is put
together again as `b0 | (b1 << 6) | (b2 << 12)`, and every triple of bytes up to `0x3F` is packed by some
mask. -/
def Obligations.PackIsABijectionOntoSixBitTriples : Prop :=
  (∀ m : BitVec 18,
    (∀ k : Chan, ((pack m).getD (k.val / 6) 0).getLsbD (k.val % 6) = m.getLsbD k.val) ∧
    (∀ b ∈ pack m, b.getLsbD 6 = false ∧ b.getLsbD 7 = false) ∧
    (∃ b0 b1 b2 : Byte, pack m = [b0, b1, b2] ∧
      m = b0.setWidth 18 ||| (b1.setWidth 18 <<< 6) ||| (b2.setWidth 18 <<< 12))) ∧
  (∀ b0 b1 b2 : Byte, b0.toNat ≤ 0x3F → b1.toNat ≤ 0x3F → b2.toNat ≤ 0x3F →
    ∃ m, pack m = [b0, b1, b2])

/-! ## Lifecycle and output control -/

/-- R100: `OPEN`. -/
def Obligations.OpenTurnsAllOffThenEnablesOutput : Prop :=
  encode .openCmd = [0x01000000] ∧
  ∀ s : State,
    (s.phase = .uninit →
      (∀ as, s.answers = .ok :: .ok :: .ok :: as →
        exec .openCmd s = .next (ended
          { sent s as [wr 0x13 [0, 0, 0] .ok, wr 0x16 [0xFF] .ok, wr 0x00 [0x01] .ok] with
            mask := 0x00000, phase := .ready } 0x00000000)) ∧
      (∀ e as, s.answers = .err e :: as →
        exec .openCmd s = .next (ended
          { sent s as [wr 0x13 [0, 0, 0] (.err e)] with mask := 0x00000 } (transportErrorWord e))) ∧
      (∀ e as, s.answers = .ok :: .err e :: as →
        exec .openCmd s = .next (ended
          { sent s as [wr 0x13 [0, 0, 0] .ok, wr 0x16 [0xFF] (.err e)] with mask := 0x00000 }
          (transportErrorWord e))) ∧
      (∀ e as, s.answers = .ok :: .ok :: .err e :: as →
        exec .openCmd s = .next (ended
          { sent s as [wr 0x13 [0, 0, 0] .ok, wr 0x16 [0xFF] .ok, wr 0x00 [0x01] (.err e)] with
            mask := 0x00000 } (transportErrorWord e)))) ∧
    (s.phase ≠ .uninit → exec .openCmd s = .next (ended s 0x50000000))

/-- R101: `CLOSE`. -/
def Obligations.CloseTurnsOffWhateverTheAnswers : Prop :=
  encode .closeCmd = [0x02000000] ∧
  ∀ s : State,
    (s.phase = .ready →
      (∀ b c as, s.answers = .ok :: b :: c :: as →
        exec .closeCmd s = .next (ended
          { sent s as [wr 0x13 [0, 0, 0] .ok, wr 0x16 [0xFF] b, wr 0x00 [0x00] c] with
            mask := 0x00000, phase := .disposed } 0x00000000)) ∧
      (∀ e c as, s.answers = .err e :: c :: as →
        exec .closeCmd s = .next (ended
          { sent s as [wr 0x13 [0, 0, 0] (.err e), wr 0x00 [0x00] c] with
            mask := 0x00000, phase := .disposed } 0x00000000))) ∧
    (s.phase ≠ .ready → exec .closeCmd s = .next (ended { s with phase := .disposed } 0x00000000))

/-- R102: `OUT_ENABLE`. -/
def Obligations.OutEnableWritesOutputOn : Prop :=
  encode .outEnable = [0x10000000] ∧
  ∀ s : State,
    (s.phase = .ready → SingleWrite .outEnable s 0x00 [0x01]) ∧
    (s.phase ≠ .ready → exec .outEnable s = .next (ended s 0x50000000))

/-- R103: `OUT_DISABLE`. -/
def Obligations.OutDisableWritesOutputOff : Prop :=
  encode .outDisable = [0x11000000] ∧
  ∀ s : State,
    (s.phase = .ready → SingleWrite .outDisable s 0x00 [0x00]) ∧
    (s.phase ≠ .ready → exec .outDisable s = .next (ended s 0x50000000))

/-- R104: `CHIP_RESET`. -/
def Obligations.ChipResetWritesTheResetRegisterOnly : Prop :=
  encode .chipReset = [0x12000000] ∧
  ∀ s : State,
    (s.phase = .ready → SingleWrite .chipReset s 0x17 [0xFF]) ∧
    (s.phase ≠ .ready → exec .chipReset s = .next (ended s 0x50000000))

/-! ## Enable mask -/

/-- R122, R120, R121: `CH_ON_V`. -/
def Obligations.ChOnVSetsTheSelectedBits : Prop :=
  ∀ (sel : BitVec 24) (s : State),
    encode (.chOnV sel) = [0x20000000 ||| sel.setWidth 32] ∧
    (s.phase = .ready → sel.extractLsb' 18 6 = 0 →
      WriteThenCommit (.chOnV sel) s { s with mask := s.mask ||| sel.extractLsb' 0 18 } 0x13
        (pack (s.mask ||| sel.extractLsb' 0 18))) ∧
    (s.phase = .ready → sel.extractLsb' 18 6 ≠ 0 →
      exec (.chOnV sel) s = .next (ended s 0x10000000)) ∧
    (s.phase ≠ .ready → exec (.chOnV sel) s = .next (ended s 0x50000000))

/-- R123, R120, R121: `CH_OFF_V`. -/
def Obligations.ChOffVClearsTheSelectedBits : Prop :=
  ∀ (sel : BitVec 24) (s : State),
    encode (.chOffV sel) = [0x21000000 ||| sel.setWidth 32] ∧
    (s.phase = .ready → sel.extractLsb' 18 6 = 0 →
      WriteThenCommit (.chOffV sel) s { s with mask := s.mask &&& ~~~(sel.extractLsb' 0 18) } 0x13
        (pack (s.mask &&& ~~~(sel.extractLsb' 0 18)))) ∧
    (s.phase = .ready → sel.extractLsb' 18 6 ≠ 0 →
      exec (.chOffV sel) s = .next (ended s 0x10000000)) ∧
    (s.phase ≠ .ready → exec (.chOffV sel) s = .next (ended s 0x50000000))

/-- R124, R120, R121: `CH_ON_I`. -/
def Obligations.ChOnISetsOneBit : Prop :=
  ∀ (ch : BitVec 5) (s : State),
    encode (.chOnI ch) = [0x22000000 ||| (ch.setWidth 32 <<< 16)] ∧
    (s.phase = .ready → ch.toNat ≤ 17 →
      WriteThenCommit (.chOnI ch) s { s with mask := s.mask ||| (1#18 <<< ch.toNat) } 0x13
        (pack (s.mask ||| (1#18 <<< ch.toNat)))) ∧
    (s.phase = .ready → 17 < ch.toNat → exec (.chOnI ch) s = .next (ended s 0x10000000)) ∧
    (s.phase ≠ .ready → exec (.chOnI ch) s = .next (ended s 0x50000000))

/-- R125, R120, R121: `CH_OFF_I`. -/
def Obligations.ChOffIClearsOneBit : Prop :=
  ∀ (ch : BitVec 5) (s : State),
    encode (.chOffI ch) = [0x23000000 ||| (ch.setWidth 32 <<< 16)] ∧
    (s.phase = .ready → ch.toNat ≤ 17 →
      WriteThenCommit (.chOffI ch) s { s with mask := s.mask &&& ~~~(1#18 <<< ch.toNat) } 0x13
        (pack (s.mask &&& ~~~(1#18 <<< ch.toNat)))) ∧
    (s.phase = .ready → 17 < ch.toNat → exec (.chOffI ch) s = .next (ended s 0x10000000)) ∧
    (s.phase ≠ .ready → exec (.chOffI ch) s = .next (ended s 0x50000000))

/-- R126, R120, R121: `ALL_ON`. -/
def Obligations.AllOnSetsEveryBit : Prop :=
  encode .allOn = [0x24000000] ∧
  ∀ s : State,
    (s.phase = .ready →
      WriteThenCommit .allOn s { s with mask := 0x3FFFF } 0x13 [0x3F, 0x3F, 0x3F]) ∧
    (s.phase ≠ .ready → exec .allOn s = .next (ended s 0x50000000))

/-- R127, R120, R121: `ALL_OFF`. -/
def Obligations.AllOffClearsEveryBit : Prop :=
  encode .allOff = [0x25000000] ∧
  ∀ s : State,
    (s.phase = .ready →
      WriteThenCommit .allOff s { s with mask := 0x00000 } 0x13 [0x00, 0x00, 0x00]) ∧
    (s.phase ≠ .ready → exec .allOff s = .next (ended s 0x50000000))

/-- R128, R120, R121: `MASK_LOAD`. -/
def Obligations.MaskLoadAssignsTheMask : Prop :=
  ∀ (sel : BitVec 24) (s : State),
    encode (.maskLoad sel) = [0x26000000 ||| sel.setWidth 32] ∧
    (s.phase = .ready → sel.extractLsb' 18 6 = 0 →
      WriteThenCommit (.maskLoad sel) s { s with mask := sel.extractLsb' 0 18 } 0x13
        (pack (sel.extractLsb' 0 18))) ∧
    (s.phase = .ready → sel.extractLsb' 18 6 ≠ 0 →
      exec (.maskLoad sel) s = .next (ended s 0x10000000)) ∧
    (s.phase ≠ .ready → exec (.maskLoad sel) s = .next (ended s 0x50000000))

/-- R130, R87: `IS_SET`. -/
def Obligations.IsSetAnswersTheMaskBit : Prop :=
  ∀ (ch : BitVec 5) (s : State),
    encode (.isSet ch) = [0x27000000 ||| (ch.setWidth 32 <<< 16)] ∧
    (s.phase = .ready → ch.toNat ≤ 17 →
      exec (.isSet ch) s =
        .next (ended s (if s.mask.getLsbD ch.toNat then 0x00000001 else 0x00000000))) ∧
    (s.phase = .ready → 17 < ch.toNat → exec (.isSet ch) s = .next (ended s 0x10000000)) ∧
    (s.phase ≠ .ready → exec (.isSet ch) s = .next (ended s 0x50000000))

/-- R131, R87: `MASK_READ`. Byte 0 of the packed mask in bits 7:0, byte 1 in 15:8, byte 2 in 23:16. -/
def Obligations.MaskReadAnswersThePackedMask : Prop :=
  encode .maskRead = [0x28000000] ∧
  ∀ s : State,
    (s.phase = .ready → ∀ b0 b1 b2 : Byte, pack s.mask = [b0, b1, b2] →
      exec .maskRead s = .next (ended s
        ((b2.setWidth 32 <<< 16) ||| (b1.setWidth 32 <<< 8) ||| b0.setWidth 32))) ∧
    (s.phase ≠ .ready → exec .maskRead s = .next (ended s 0x50000000))

/-! ## Gamma tables -/

/-- R151: `GAMMA_SET`. -/
def Obligations.GammaSetReplacesOneTable : Prop :=
  ∀ (ch : BitVec 5) (entries : List Word) (s : State),
    (entries.length < 65536 → encode (.gammaSet ch entries) =
      (0x30000000 ||| (ch.setWidth 32 <<< 16) ||| BitVec.ofNat 32 entries.length) :: entries) ∧
    (s.phase = .ready → entries.length = 256 → (∀ e ∈ entries, e.toNat ≤ 255) →
      ∀ c : Chan, c.val = ch.toNat →
        ∃ t, exec (.gammaSet ch entries) s = .next (ended { s with lut := t } 0x00000000) ∧
          (∀ b : Byte, readLut { s with lut := t } c b = (entries.getD b.toNat 0).setWidth 8) ∧
          (∀ d : Chan, d ≠ c → t[d] = s.lut[d])) ∧
    (s.phase = .ready → 17 < ch.toNat → exec (.gammaSet ch entries) s = .next (ended s 0x10000000)) ∧
    (s.phase = .ready → ch.toNat ≤ 17 → entries.length ≠ 256 →
      exec (.gammaSet ch entries) s = .next (ended s 0x30000000)) ∧
    (s.phase = .ready → ch.toNat ≤ 17 → entries.length = 256 → (∃ e ∈ entries, 255 < e.toNat) →
      exec (.gammaSet ch entries) s = .next (ended s 0x40000000)) ∧
    (s.phase ≠ .ready → exec (.gammaSet ch entries) s = .next (ended s 0x50000000))

/-- R153: `GAMMA_RESET`. -/
def Obligations.GammaResetRestoresOneTable : Prop :=
  ∀ (ch : BitVec 5) (s : State),
    encode (.gammaReset ch) = [0x31000000 ||| (ch.setWidth 32 <<< 16)] ∧
    (s.phase = .ready → ∀ c : Chan, c.val = ch.toNat →
      ∃ t, exec (.gammaReset ch) s = .next (ended { s with lut := t } 0x00000000) ∧
        (∀ b : Byte, readLut { s with lut := t } c b = defEntry b.toNat) ∧
        (∀ d : Chan, d ≠ c → t[d] = s.lut[d])) ∧
    (s.phase = .ready → 17 < ch.toNat → exec (.gammaReset ch) s = .next (ended s 0x10000000)) ∧
    (s.phase ≠ .ready → exec (.gammaReset ch) s = .next (ended s 0x50000000))

/-- R154: `GAMMA_RESET_ALL`. -/
def Obligations.GammaResetAllRestoresEveryTable : Prop :=
  encode .gammaResetAll = [0x32000000] ∧
  ∀ s : State,
    (s.phase = .ready →
      ∃ t, exec .gammaResetAll s = .next (ended { s with lut := t } 0x00000000) ∧
        ∀ (c : Chan) (b : Byte), readLut { s with lut := t } c b = defEntry b.toNat) ∧
    (s.phase ≠ .ready → exec .gammaResetAll s = .next (ended s 0x50000000))

/-- R155, R87: `TRANSLATE`. -/
def Obligations.TranslateAnswersTheTableEntry : Prop :=
  ∀ (ch : BitVec 5) (val : BitVec 16) (s : State),
    encode (.translate ch val) = [0x33000000 ||| (ch.setWidth 32 <<< 16) ||| val.setWidth 32] ∧
    (s.phase = .ready → val.toNat ≤ 255 → ∀ c : Chan, c.val = ch.toNat →
      exec (.translate ch val) s =
        .next (ended s ((readLut s c (val.extractLsb' 0 8)).setWidth 32))) ∧
    (s.phase = .ready → 17 < ch.toNat → exec (.translate ch val) s = .next (ended s 0x10000000)) ∧
    (s.phase = .ready → ch.toNat ≤ 17 → 255 < val.toNat →
      exec (.translate ch val) s = .next (ended s 0x40000000)) ∧
    (s.phase ≠ .ready → exec (.translate ch val) s = .next (ended s 0x50000000))

/-! ## Brightness -/

/-- R171, R170: `BRIGHT_SET`. -/
def Obligations.BrightSetUpdatesOneRegisterAndSendsAll : Prop :=
  ∀ (ch : BitVec 5) (val : BitVec 16) (s : State),
    encode (.brightSet ch val) = [0x40000000 ||| (ch.setWidth 32 <<< 16) ||| val.setWidth 32] ∧
    (s.phase = .ready → val.toNat ≤ 255 → ∀ c : Chan, c.val = ch.toNat →
      WriteThenCommit (.brightSet ch val) s { s with br := s.br.set c (val.extractLsb' 0 8) } 0x01
        (correctedBytes { s with br := s.br.set c (val.extractLsb' 0 8) })) ∧
    (s.phase = .ready → 17 < ch.toNat → exec (.brightSet ch val) s = .next (ended s 0x10000000)) ∧
    (s.phase = .ready → ch.toNat ≤ 17 → 255 < val.toNat →
      exec (.brightSet ch val) s = .next (ended s 0x40000000)) ∧
    (s.phase ≠ .ready → exec (.brightSet ch val) s = .next (ended s 0x50000000))

/-- R173, R174, R170: `BRIGHT_BULK`. The last pair that names a channel gives its value; a channel no pair
names keeps its value. -/
def Obligations.BrightBulkAppliesThePairsInOrderAndSendsAll : Prop :=
  ∀ (ps : List BrightPair) (s : State),
    (ps.length < 65536 → encode (.brightBulk ps) = (0x41000000 ||| BitVec.ofNat 32 ps.length) ::
      ps.map fun p : BrightPair => (p.channel.setWidth 32 <<< 16) ||| p.value.setWidth 32) ∧
    (s.phase = .ready → (∀ p ∈ ps, p.channel.toNat ≤ 17) → (∀ p ∈ ps, p.value.toNat ≤ 255) →
      ∃ br : Vector Byte 18,
        (∀ k : Chan, br[k] =
          ((ps.reverse.find? fun p => decide (p.channel.toNat = k.val)).map fun p =>
            p.value.extractLsb' 0 8).getD s.br[k]) ∧
        WriteThenCommit (.brightBulk ps) s { s with br := br } 0x01 (correctedBytes { s with br := br })) ∧
    (s.phase = .ready → (∃ p ∈ ps, 17 < p.channel.toNat) →
      exec (.brightBulk ps) s = .next (ended s 0x10000000)) ∧
    (s.phase = .ready → (∀ p ∈ ps, p.channel.toNat ≤ 17) → (∃ p ∈ ps, 255 < p.value.toNat) →
      exec (.brightBulk ps) s = .next (ended s 0x40000000)) ∧
    (s.phase ≠ .ready → exec (.brightBulk ps) s = .next (ended s 0x50000000))

/-! ## Errors and responses, over all commands -/

/-- R14, R207: in every phase but `READY` every command except `OPEN` and `CLOSE` answers `InvalidState`
and changes nothing. -/
def Obligations.CommandsOutsideReadyAnswerInvalidState : Prop :=
  ∀ (i : Instr) (s : State), i ≠ .openCmd → i ≠ .closeCmd → s.phase ≠ .ready →
    exec i s = .next (ended s 0x50000000)

/-- R200: a command that ends with a validation error (status 1, 3, 4 or 5) changes no state and issues no
bus write. -/
def Obligations.ValidationErrorsChangeNothing : Prop :=
  ∀ (i : Instr) (s t : State) (w : Word),
    exec i s = .next t → t.responses = s.responses ++ [w] → responseStatus w ∈ [1, 3, 4, 5] →
      t = ended s w

/-- R202: a command that ends with `TransportError` has its writes up to and including the failing one in
the trace, all earlier ones answered `ok`; its code is the transport's, and the phase is as before. -/
def Obligations.TransportErrorStopsAtTheFailingWrite : Prop :=
  ∀ (i : Instr) (s t : State) (w : Word),
    exec i s = .next t → t.responses = s.responses ++ [w] → responseStatus w = 6 →
      ∃ es reg data e, t.trace = s.trace ++ es ++ [wr reg data (.err e)] ∧
        (∀ x ∈ es, x.answer = .ok) ∧ w = transportErrorWord e ∧ t.phase = s.phase

/-- R203, R101: `CLOSE` reports no error, whatever the transport answers, and once it has ended the phase is
`DISPOSED`. -/
def Obligations.CloseNeverReportsAnError : Prop :=
  ∀ s t : State, exec .closeCmd s = .next t →
    (∀ w, t.responses = s.responses ++ [w] → w = 0x00000000) ∧
    (t.pending = none → t.phase = .disposed)

/-- R70, R85, R209, R239: every command completes with a next state; it has produced exactly one response
word, and is then the end of a run if no further word was sent; or it has used up every answer and waits with
none, and the run is not over. -/
def Obligations.EveryCommandAnswersOnceOrWaits : Prop :=
  ∀ (i : Instr) (s : State), ∃ t, exec i s = .next t ∧
    ((t.pending = none ∧ (∃ w, t.responses = s.responses ++ [w]) ∧
        (s.resetLine = false → s.rx = [] → s.cmdPort = [] →
          runResult t = some { final := t, responses := t.responses, trace := t.trace })) ∨
     (t.pending.isSome = true ∧ t.answers = [] ∧ t.responses = s.responses ∧ runResult t = none))

/-- R222, R190: the machine never faults, and a step is refused exactly when the reset input is asserted
while a command is running. -/
def Obligations.StepStopsOnlyOnResetDuringACommand : Prop :=
  ∀ s : State, (∀ f, step s ≠ .fault f) ∧
    (∀ r, step s = .refused r ↔
      r = .resetDuringCommand ∧ s.resetLine = true ∧ (s.rx ≠ [] ∨ s.pending ≠ none))

/-! ## Frames -/

/-- R100 to R106: what the lifecycle and output commands leave unchanged. -/
def Obligations.LifecycleCommandsFrame : Prop :=
  ∀ (i : Instr) (s t : State),
    i ∈ [Instr.openCmd, .closeCmd, .outEnable, .outDisable, .chipReset] → exec i s = .next t →
      t.br = s.br ∧ t.lut = s.lut ∧ (∀ (c : Chan) (b : Byte), readLut t c b = readLut s c b) ∧
      t.rx = s.rx ∧ t.cmdPort = s.cmdPort ∧ t.resetLine = s.resetLine ∧
      (i ∈ [Instr.outEnable, .outDisable, .chipReset] → t.phase = s.phase ∧ t.mask = s.mask)

/-- R120 to R128: what the mask-writing commands leave unchanged. -/
def Obligations.MaskCommandsFrame : Prop :=
  ∀ (i : Instr) (s t : State), writesMask i = true → exec i s = .next t →
    t.phase = s.phase ∧ t.br = s.br ∧ t.lut = s.lut ∧
    (∀ (c : Chan) (b : Byte), readLut t c b = readLut s c b) ∧
    t.rx = s.rx ∧ t.cmdPort = s.cmdPort ∧ t.resetLine = s.resetLine

/-- R130, R131, R155: the commands that only read change nothing but the response. -/
def Obligations.ReadingCommandsChangeNothing : Prop :=
  ∀ (i : Instr) (s t : State),
    ((∃ ch, i = .isSet ch) ∨ i = .maskRead ∨ ∃ ch val, i = .translate ch val) →
    exec i s = .next t → ∃ w, t = ended s w

/-- R150, R158: the table-writing commands change nothing but tables and the response; `GAMMA_SET` and
`GAMMA_RESET` touch no table but the named channel's. -/
def Obligations.GammaCommandsFrame : Prop :=
  ∀ (i : Instr) (s t : State), writesTables i = true → exec i s = .next t →
    (∃ w, t = ended { s with lut := t.lut } w) ∧
    (∀ ch, ((∃ es, i = .gammaSet ch es) ∨ i = .gammaReset ch) →
      ∀ d : Chan, d.val ≠ ch.toNat → t.lut[d] = s.lut[d] ∧ ∀ b : Byte, readLut t d b = readLut s d b)

/-- R171, R173, R176: the brightness commands change no phase, mask or table, and no brightness register
they do not name. -/
def Obligations.BrightnessCommandsFrame : Prop :=
  ∀ (i : Instr) (s t : State), writesBrightness i = true → exec i s = .next t →
    t.phase = s.phase ∧ t.mask = s.mask ∧ t.lut = s.lut ∧
    (∀ (c : Chan) (b : Byte), readLut t c b = readLut s c b) ∧
    t.rx = s.rx ∧ t.cmdPort = s.cmdPort ∧ t.resetLine = s.resetLine ∧
    (∀ ch val, i = .brightSet ch val → ∀ k : Chan, k.val ≠ ch.toNat → t.br[k] = s.br[k]) ∧
    (∀ ps, i = .brightBulk ps → ∀ k : Chan, (∀ p ∈ ps, p.channel.toNat ≠ k.val) → t.br[k] = s.br[k])

/-- R21, R26, R27, R31: each piece of architectural state is written by its own commands only. -/
def Obligations.EachRegisterHasItsOwnWriters : Prop :=
  ∀ (i : Instr) (s t : State), exec i s = .next t →
    (writesBrightness i = false → t.br = s.br) ∧
    (writesTables i = false → t.lut = s.lut) ∧
    (writesMask i = false → i ≠ .openCmd → i ≠ .closeCmd → t.mask = s.mask) ∧
    (i ≠ .openCmd → i ≠ .closeCmd → t.phase = s.phase)

/-! ## Invariants -/

/-- The reset state satisfies the invariant of Safety.lean. Its clauses `receiving`, `held` and `tables` are the
model's choice: log entries 4, 6 and 8, DESIGN CHOICE. -/
def Obligations.ResetSatisfiesTheInvariant : Prop := Invariant State.reset

/-- Every step keeps the invariant, from every state that satisfies it. By the rules: responses legal (R85,
R86), bus writes those of R58, the commit exactly after each data write answered `ok` (R63, R57), the command in
progress fitting the phase (R105). By the model's choice (DESIGN CHOICE): the received words no whole packet is
log entry 4, the reset state while reset is asserted is log entry 6 (R220 gives the state at release only), the
tables' canonical form is log entry 8. -/
def Obligations.EveryStepKeepsTheInvariant : Prop :=
  ∀ s t : State, Invariant s → step s = .next t → Invariant t

/-- Every state of every run, with the host's and the transport's moves in any order, satisfies the
invariant. Its clauses `receiving`, `held` and `tables` are the model's choice: log entries 4, 6 and 8, DESIGN
CHOICE. -/
def Obligations.EveryReachableStateSatisfiesTheInvariant : Prop :=
  ∀ s : State, Reachable s → Invariant s

/-- R26, R105: without a reset the phase only moves on: `UNINIT`, `READY`, `DISPOSED`; so `DISPOSED` is left
only by reset. -/
def Obligations.PhaseNeverGoesBackWithoutReset : Prop :=
  ∀ s t : State, Invariant s → s.resetLine = false → step s = .next t →
    phaseRank s.phase ≤ phaseRank t.phase

/-- R61, R70: without a reset a step only appends to the trace and to the responses (at most one), uses up
answers from the front and words from the front, and takes no word twice and drops none. -/
def Obligations.StepOnlyAppendsAndConsumesInOrder : Prop :=
  ∀ s t : State, s.resetLine = false → step s = .next t →
    (∃ es, t.trace = s.trace ++ es) ∧
    (∃ ws, ws.length ≤ 1 ∧ t.responses = s.responses ++ ws) ∧
    (∃ as, s.answers = as ++ t.answers) ∧
    (∃ ws, s.rx ++ s.cmdPort = ws ++ (t.rx ++ t.cmdPort)) ∧
    t.resetLine = false

/-! ## Independence -/

/-- R29, R176: a brightness command does not depend on the mask: with another mask it does the same and
leaves that mask. -/
def Obligations.BrightnessCommandsIgnoreTheMask : Prop :=
  ∀ (i : Instr) (s : State) (m : BitVec 18), writesBrightness i = true →
    exec i { s with mask := m } = mapNext (fun t => { t with mask := m }) (exec i s)

/-- R29: a mask command depends on neither the brightness registers nor the tables. -/
def Obligations.MaskCommandsIgnoreBrightnessAndTables : Prop :=
  ∀ (i : Instr) (s : State) (br : Vector Byte 18) (lut : Vector Memory 18), writesMask i = true →
    exec i { s with br := br, lut := lut } =
      mapNext (fun t => { t with br := br, lut := lut }) (exec i s)

/-! ## Laws of the families -/

/-- R132a: `CH_ON_I k` then `CH_OFF_I k` clears bit k and keeps every other; the byte triple returns to its
prior value exactly when the bit was clear before. -/
def Obligations.EnableThenDisableClearsTheBit : Prop :=
  ∀ (s : State) (ch : BitVec 5) (as : List Answer),
    s.phase = .ready → ch.toNat ≤ 17 → s.answers = .ok :: .ok :: .ok :: .ok :: as →
      ∃ t u, exec (.chOnI ch) s = .next t ∧ exec (.chOffI ch) t = .next u ∧
        (∀ k : Chan, u.mask.getLsbD k.val = (s.mask.getLsbD k.val && decide (k.val ≠ ch.toNat))) ∧
        (pack u.mask = pack s.mask ↔ s.mask.getLsbD ch.toNat = false)

/-- R158a: `TRANSLATE` after a valid `GAMMA_SET` of the same channel answers the entry that was set. -/
def Obligations.TranslateAnswersTheEntryThatWasSet : Prop :=
  ∀ (s : State) (ch : BitVec 5) (entries : List Word) (val : BitVec 16),
    s.phase = .ready → ch.toNat ≤ 17 → entries.length = 256 → (∀ e ∈ entries, e.toNat ≤ 255) →
    val.toNat ≤ 255 →
      ∃ t, exec (.gammaSet ch entries) s = .next t ∧
        exec (.translate ch val) t = .next (ended t (entries.getD val.toNat 0))

/-- R158d: `GAMMA_RESET_ALL` leaves the tables as 18 `GAMMA_RESET`s do, in any order. -/
def Obligations.GammaResetAllEqualsEighteenResets : Prop :=
  ∀ (s : State) (order : List Chan), s.phase = .ready → (∀ c : Chan, c ∈ order) →
    ∃ t u, exec .gammaResetAll s = .next t ∧ t.lut = u.lut ∧
      order.foldl
        (fun r c => match r with
          | .next v => exec (.gammaReset (BitVec.ofNat 5 c.val)) v
          | .fault f => .fault f
          | .refused r => .refused r)
        (Host.Outcome.next s : Result) = .next u

/-- R132c, R132d: the one-channel commands are the vector commands of one bit; `ALL_ON` and `ALL_OFF` are the
full vectors and the loads of `0x3FFFF` and `0`. -/
def Obligations.MaskCommandsAgreeWithTheirVectorForms : Prop :=
  ∀ s : State,
    (∀ ch : BitVec 5, ch.toNat ≤ 17 →
      exec (.chOnI ch) s = exec (.chOnV (1#24 <<< ch.toNat)) s ∧
      exec (.chOffI ch) s = exec (.chOffV (1#24 <<< ch.toNat)) s) ∧
    exec .allOn s = exec (.chOnV 0x3FFFF) s ∧ exec .allOn s = exec (.maskLoad 0x3FFFF) s ∧
    exec .allOff s = exec (.chOffV 0x3FFFF) s ∧ exec .allOff s = exec (.maskLoad 0) s

/-- R174: `BRIGHT_BULK` with one pair does what `BRIGHT_SET` does, in every case, errors included. -/
def Obligations.OnePairBulkIsBrightSet : Prop :=
  ∀ (s : State) (ch : BitVec 5) (val : BitVec 16),
    exec (.brightBulk [{ channel := ch.setWidth 16, value := val }]) s = exec (.brightSet ch val) s

/-- R176d: with every table at its default, no byte a brightness command sends to the PWM register is above
249. -/
def Obligations.DefaultTablesSendAtMost249 : Prop :=
  ∀ (i : Instr) (s t : State) (es : List BusEntry), writesBrightness i = true →
    (∀ (c : Chan) (b : Byte), readLut s c b = defEntry b.toNat) →
    exec i s = .next t → t.trace = s.trace ++ es →
      ∀ x ∈ es, x.reg = 0x01 → ∀ b ∈ x.data, b.toNat ≤ 249

/-- R90, R92: `REFRESH` is the empty bulk; `GAMMA_IDENTITY` sets the identity table; `CH_ON_ORD` and
`CH_OFF_ORD` select channel index `n - 1` for ordinal n in 1..18, and no other. -/
def Obligations.PseudoInstructionsExpandAsTabled : Prop :=
  refresh = .brightBulk [] ∧
  (∀ (s : State) (ch : BitVec 5) (c : Chan), s.phase = .ready → c.val = ch.toNat →
    ∃ t, exec (gammaIdentity ch) s = .next t ∧ ∀ b : Byte, readLut t c b = b) ∧
  (∀ ns : List Nat, (∀ n ∈ ns, 1 ≤ n ∧ n ≤ 18) →
    ∃ sel, chOnOrd ns = some (.chOnV sel) ∧ chOffOrd ns = some (.chOffV sel) ∧
      sel.extractLsb' 18 6 = 0 ∧ ∀ k : Chan, sel.getLsbD k.val = decide (k.val + 1 ∈ ns))

/-- R71: in whatever order a narrower link carries the four bytes of a word, the word that arrives is the
word that was sent, so no rule depends on the order. That the pieces are the four bytes is the
model's choice: log entry 12, DESIGN CHOICE. -/
def Obligations.EveryLinkOrderCarriesTheWord : Prop :=
  ∀ (order : LinkOrder) (w : Word), order.Nodup → order.length = 4 →
    wordOfLink order (wordToLink order w) = w
end

