-- ==== Sys2Proof/Laws/Decode.lean ====
section
/-! SUPPORT. The fields of an encoded header word, the opcode column read both ways, and a header word
rebuilt from its fields. -/

namespace Sys2Proof

theorem headerOp_headerWord (o : Opcode) (a : BitVec 24) : headerOp (headerWord o a) = o.code := by
  apply BitVec.eq_of_getLsbD_eq
  intro i hi
  simp [headerOp, headerWord, hi, show 24 + i < 32 by omega]

theorem headerArg_headerWord (o : Opcode) (a : BitVec 24) : headerArg (headerWord o a) = a := by
  apply BitVec.eq_of_getLsbD_eq
  intro i hi
  simp [headerArg, headerWord, hi, show i < 32 by omega]

theorem headerCh_headerWord (o : Opcode) (ch : BitVec 5) (v : BitVec 16) :
    headerCh (headerWord o (argCV ch v)) = ch := by
  apply BitVec.eq_of_getLsbD_eq
  intro i hi
  simp [headerCh, headerWord, argCV, hi, show 16 + i < 32 by omega, show 16 + i < 24 by omega]

theorem headerVal_headerWord (o : Opcode) (ch : BitVec 5) (v : BitVec 16) :
    headerVal (headerWord o (argCV ch v)) = v := by
  apply BitVec.eq_of_getLsbD_eq
  intro i hi
  simp [headerVal, headerWord, argCV, hi, show i < 32 by omega, show i < 24 by omega]

theorem headerVal_argL (o : Opcode) (len : BitVec 16) : headerVal (headerWord o (argL len)) = len := by
  apply BitVec.eq_of_getLsbD_eq
  intro i hi
  simp [headerVal, headerWord, argL, hi, show i < 32 by omega, show i < 24 by omega]

/-- The bits of a constant mask, checked bit by bit. -/
theorem mask_bits {r : BitVec 24} {p : Nat → Bool} (h : ∀ i : Fin 24, r.getLsbD i = p i) {i : Nat}
    (hi : i < 24) : r.getLsbD i = p i := h ⟨i, hi⟩

theorem reserved_cv {i : Nat} (hi : i < 24) : (0xE00000#24).getLsbD i = decide (21 ≤ i) :=
  mask_bits (p := fun i => decide (21 ≤ i)) (by decide) hi

theorem reserved_c {i : Nat} (hi : i < 24) :
    (0xE0FFFF#24).getLsbD i = (decide (21 ≤ i) || decide (i < 16)) :=
  mask_bits (p := fun i => decide (21 ≤ i) || decide (i < 16)) (by decide) hi

theorem reserved_l {i : Nat} (hi : i < 24) : (0xFF0000#24).getLsbD i = decide (16 ≤ i) :=
  mask_bits (p := fun i => decide (16 ≤ i)) (by decide) hi

/-- A reserved field is zero exactly when each of its bits is. -/
theorem reserved_zero_iff (a r : BitVec 24) :
    a &&& r = 0 ↔ ∀ i, i < 24 → r.getLsbD i = true → a.getLsbD i = false := by
  constructor
  · intro h i _ hr
    have := congrArg (fun x => x.getLsbD i) h
    simpa [hr] using this
  · intro h
    apply BitVec.eq_of_getLsbD_eq
    intro i hi
    cases hr : r.getLsbD i
    · simp [hr]
    · rw [BitVec.getLsbD_and, h i hi hr]
      simp

theorem argCV_reserved (ch : BitVec 5) (v : BitVec 16) : argCV ch v &&& 0xE00000 = 0 := by
  rw [reserved_zero_iff]
  intro i hi hr
  rw [show (0xE00000 : BitVec 24) = 0xE00000#24 from rfl, reserved_cv hi] at hr
  have h21 : 21 ≤ i := by simpa using hr
  simp [argCV, BitVec.getLsbD_of_ge ch (i - 16) (by omega), BitVec.getLsbD_of_ge v i (by omega)]

theorem argC_reserved (ch : BitVec 5) : argC ch &&& 0xE0FFFF = 0 := by
  rw [reserved_zero_iff]
  intro i hi hr
  rw [show (0xE0FFFF : BitVec 24) = 0xE0FFFF#24 from rfl, reserved_c hi] at hr
  by_cases h : i < 16
  · simp [argC, argCV, h]
  · have h21 : 21 ≤ i := by simpa [h] using hr
    simp [argC, argCV, BitVec.getLsbD_of_ge ch (i - 16) (by omega)]

theorem argL_reserved (len : BitVec 16) : argL len &&& 0xFF0000 = 0 := by
  rw [reserved_zero_iff]
  intro i hi hr
  rw [show (0xFF0000 : BitVec 24) = 0xFF0000#24 from rfl, reserved_l hi] at hr
  have h16 : 16 ≤ i := by simpa using hr
  simp [argL, BitVec.getLsbD_of_ge len i h16]

/-- Each code belongs to its own row. -/
theorem opcodeOf_code (o : Opcode) : opcodeOf o.code = some o := by
  cases o <;> decide

theorem code_of_opcodeOf {c : BitVec 8} {o : Opcode} (h : opcodeOf c = some o) : o.code = c := by
  have := List.find?_some h
  simpa using this

/-- A header word is its opcode above its argument. -/
theorem headerWord_of_op {h : Word} {o : Opcode} (ho : o.code = headerOp h) :
    headerWord o (headerArg h) = h := by
  apply BitVec.eq_of_getLsbD_eq
  intro i hi
  by_cases h24 : i < 24
  · simp [headerWord, headerArg, h24, hi]
  · simp [headerWord, headerArg, ho, headerOp, h24, hi, show i - 24 < 8 by omega,
      show 24 + (i - 24) = i by omega]

theorem argCV_of_reserved {h : Word} (hr : headerArg h &&& 0xE00000 = 0) :
    argCV (headerCh h) (headerVal h) = headerArg h := by
  rw [reserved_zero_iff] at hr
  apply BitVec.eq_of_getLsbD_eq
  intro i hi
  by_cases h16 : i < 16
  · simp [headerArg, argCV, headerVal, hi, h16]
  · by_cases h21 : i < 21
    · simp [headerArg, argCV, headerCh, headerVal, hi, h16, show i - 16 < 5 by omega,
        show 16 + (i - 16) = i by omega]
    · have := hr i hi (by
        rw [show (0xE00000 : BitVec 24) = 0xE00000#24 from rfl, reserved_cv hi]
        simp; omega)
      rw [this]
      simp [argCV, headerVal, headerCh, h16, show ¬ i - 16 < 5 by omega]

theorem argC_of_reserved {h : Word} (hr : headerArg h &&& 0xE0FFFF = 0) :
    argC (headerCh h) = headerArg h := by
  rw [reserved_zero_iff] at hr
  have hz : ∀ i, i < 24 → (21 ≤ i ∨ i < 16) → (headerArg h).getLsbD i = false := by
    intro i hi hp
    refine hr i hi ?_
    rw [show (0xE0FFFF : BitVec 24) = 0xE0FFFF#24 from rfl, reserved_c hi]
    simpa using hp
  apply BitVec.eq_of_getLsbD_eq
  intro i hi
  by_cases h16 : i < 16
  · rw [hz i hi (.inr h16)]
    simp [argC, argCV, h16]
  · by_cases h21 : i < 21
    · simp [headerArg, argC, argCV, headerCh, hi, h16, show i - 16 < 5 by omega,
        show 16 + (i - 16) = i by omega]
    · rw [hz i hi (.inl (by omega))]
      simp [argC, argCV, headerCh, h16, show ¬ i - 16 < 5 by omega]

theorem argL_of_reserved {h : Word} (hr : headerArg h &&& 0xFF0000 = 0) :
    argL (headerVal h) = headerArg h := by
  rw [reserved_zero_iff] at hr
  apply BitVec.eq_of_getLsbD_eq
  intro i hi
  by_cases h16 : i < 16
  · simp [headerArg, argL, headerVal, hi, h16]
  · have := hr i hi (by
      rw [show (0xFF0000 : BitVec 24) = 0xFF0000#24 from rfl, reserved_l hi]
      simp; omega)
    rw [this]
    simp [argL, headerVal, h16]

theorem wordOfPair_pairOfWord (w : Word) : wordOfPair (pairOfWord w) = w := by
  apply BitVec.eq_of_getLsbD_eq
  intro i hi
  by_cases h : i < 16
  · simp [wordOfPair, pairOfWord, h, hi]
  · simp [wordOfPair, pairOfWord, h, hi, show i - 16 < 16 by omega,
      show 16 + (i - 16) = i by omega]

theorem pairOfWord_wordOfPair (p : BrightPair) : pairOfWord (wordOfPair p) = p := by
  obtain ⟨c, v⟩ := p
  have hc : (wordOfPair ⟨c, v⟩).extractLsb' 16 16 = c := by
    apply BitVec.eq_of_getLsbD_eq
    intro i hi
    simp [wordOfPair, hi, show 16 + i < 32 by omega]
  have hv : (wordOfPair ⟨c, v⟩).extractLsb' 0 16 = v := by
    apply BitVec.eq_of_getLsbD_eq
    intro i hi
    simp [wordOfPair, hi, show i < 32 by omega]
  simp only [pairOfWord, hc, hv]

/-- The header of a word whose opcode and argument are known. -/
theorem decodeHeader_headerWord {o : Opcode} {a : BitVec 24} (h : a &&& o.format.reserved = 0) :
    decodeHeader (headerWord o a) = headerOperands (headerWord o a) o := by
  simp only [decodeHeader, headerOp_headerWord, opcodeOf_code, headerArg_headerWord, if_pos h]

/-- A legal header is the word of its opcode and argument, with its reserved bits 0. -/
theorem decodeHeader_legal {h : Word} (hl : ∀ why, decodeHeader h ≠ .illegal why) :
    ∃ o : Opcode, headerWord o (headerArg h) = h ∧ headerArg h &&& o.format.reserved = 0 ∧
      decodeHeader h = headerOperands h o := by
  unfold decodeHeader at hl ⊢
  cases ho : opcodeOf (headerOp h) with
  | none =>
    rw [ho] at hl
    exact absurd rfl (hl .unknownOpcode)
  | some o =>
    by_cases hr : headerArg h &&& o.format.reserved = 0
    · exact ⟨o, headerWord_of_op (code_of_opcodeOf ho), hr, by simp only [if_pos hr]⟩
    · rw [ho] at hl
      simp only [if_neg hr] at hl
      exact absurd rfl (hl .reservedBits)

/-- Decoding no words asks for words. -/
@[simp] theorem decode_nil : decode [] = .wait := rfl

end Sys2Proof
end

