-- ==== Sys2Proof/Laws/Memory.lean ====
section
/-! SUPPORT. The laws of one channel's table: what a whole-table write reads back as, that it is in
canonical form, and that two canonical tables that read alike are equal. -/

namespace Sys2Proof.Machine

theorem defTable_length : defTable.length = 256 := by decide +kernel

theorem defTable_getElem {b : Nat} (h : b < defTable.length) : defTable[b] = defEntry b := by
  simp [defEntry, h]

theorem read_nil (b : Nat) : Memory.read [] b = defEntry b := rfl

/-- Below the first index of a list of cells nothing is listed. -/
theorem read_cellsFrom_below (vs : List Byte) :
    ∀ (k b : Nat), b < k → Memory.read (Memory.cellsFrom k vs) b = defEntry b := by
  induction vs with
  | nil => intro k b _; rfl
  | cons v vs ih =>
    intro k b hb
    unfold Memory.cellsFrom
    split
    · exact ih (k + 1) b (by omega)
    · simp only [Memory.read]
      rw [if_neg (by omega)]
      exact ih (k + 1) b (by omega)

/-- Reading the cells of a table gives the table's bytes, and the default beyond its end. -/
theorem read_cellsFrom (vs : List Byte) :
    ∀ (k i : Nat), Memory.read (Memory.cellsFrom k vs) (k + i) = vs.getD i (defEntry (k + i)) := by
  induction vs with
  | nil => intro k i; rfl
  | cons v vs ih =>
    intro k i
    unfold Memory.cellsFrom
    cases i with
    | zero =>
      split
      · rename_i h
        rw [read_cellsFrom_below vs (k + 1) (k + 0) (by omega)]
        simp [h]
      · simp [Memory.read]
    | succ i =>
      have e : k + (i + 1) = (k + 1) + i := by omega
      split
      · rw [e, ih (k + 1) i]
        simp
      · simp only [Memory.read]
        rw [if_neg (by omega), e, ih (k + 1) i]
        simp

/-- Read after a whole-table write: the table's own bytes. -/
theorem read_ofTable (t : List Byte) (b : Nat) :
    Memory.read (Memory.ofTable t) b = t.getD b (defEntry b) := by
  simpa [Memory.ofTable] using read_cellsFrom t 0 b

theorem wfFrom_cellsFrom (vs : List Byte) :
    ∀ (k lo : Nat), lo ≤ k → k + vs.length ≤ 256 → Memory.wfFrom lo (Memory.cellsFrom k vs) = true := by
  induction vs with
  | nil => intro k lo _ _; rfl
  | cons v vs ih =>
    intro k lo hlo hlen
    simp only [List.length_cons] at hlen
    unfold Memory.cellsFrom
    split
    · exact ih (k + 1) lo (by omega) (by omega)
    · rename_i h
      have hk : k < 256 := by omega
      simp only [Memory.wfFrom, hlo, hk, h, decide_true, ne_eq, not_false_eq_true, Bool.and_self,
        Bool.true_and]
      exact ih (k + 1) (k + 1) (Nat.le_refl _) (by omega)

/-- A whole-table write leaves a canonical table. -/
theorem wf_ofTable {t : List Byte} (h : t.length ≤ 256) : Memory.wf (Memory.ofTable t) = true :=
  wfFrom_cellsFrom t 0 0 (Nat.le_refl _) (by omega)

theorem wf_nil : Memory.wf [] = true := rfl

/-- The tables of the reset state are in canonical form. -/
theorem reset_tables_wf (c : Chan) : Memory.wf State.reset.lut[c] = true := by
  simp [State.reset, wf_nil]

/-- Writing the default table lists nothing: it is the reset contents. -/
theorem cellsFrom_default :
    ∀ (n k : Nat), Memory.cellsFrom k ((List.range' k n).map defEntry) = [] := by
  intro n
  induction n with
  | zero => intro k; rfl
  | succ n ih => intro k; simp [List.range'_succ, Memory.cellsFrom, ih]

theorem defTable_eq : defTable = (List.range' 0 256).map defEntry := by
  apply List.ext_getElem
  · simp [defTable_length]
  · intro i h _
    simp [defTable_getElem h]

theorem ofTable_defTable : Memory.ofTable defTable = [] := by
  rw [Memory.ofTable, defTable_eq]
  exact cellsFrom_default 256 0

theorem read_of_wfFrom_below (m : Memory) :
    ∀ (lo b : Nat), Memory.wfFrom lo m = true → b < lo → Memory.read m b = defEntry b := by
  induction m with
  | nil => intro lo b _ _; rfl
  | cons c m ih =>
    obtain ⟨k, v⟩ := c
    intro lo b h hb
    simp only [Memory.wfFrom, Bool.and_eq_true, decide_eq_true_eq] at h
    obtain ⟨⟨⟨h1, _⟩, _⟩, h4⟩ := h
    simp only [Memory.read]
    rw [if_neg (by omega)]
    exact ih (k + 1) b h4 (by omega)

/-- Canonical tables that read alike are the same list. -/
theorem wfFrom_ext (m : Memory) :
    ∀ (n : Memory) (lo : Nat), Memory.wfFrom lo m = true → Memory.wfFrom lo n = true →
      (∀ b, b < 256 → Memory.read m b = Memory.read n b) → m = n := by
  induction m with
  | nil =>
    intro n lo _ hn hr
    cases n with
    | nil => rfl
    | cons c n =>
      obtain ⟨k, v⟩ := c
      simp only [Memory.wfFrom, Bool.and_eq_true, decide_eq_true_eq] at hn
      obtain ⟨⟨⟨_, h2⟩, h3⟩, _⟩ := hn
      have := hr k h2
      simp [Memory.read] at this
      exact absurd this.symm h3
  | cons c m ih =>
    obtain ⟨k, v⟩ := c
    intro n lo hm hn hr
    have hm' := hm
    simp only [Memory.wfFrom, Bool.and_eq_true, decide_eq_true_eq] at hm
    obtain ⟨⟨⟨m1, m2⟩, m3⟩, m4⟩ := hm
    cases n with
    | nil =>
      have := hr k m2
      simp [Memory.read] at this
      exact absurd this m3
    | cons d n =>
      obtain ⟨j, w⟩ := d
      have hn' := hn
      simp only [Memory.wfFrom, Bool.and_eq_true, decide_eq_true_eq] at hn
      obtain ⟨⟨⟨n1, n2⟩, n3⟩, n4⟩ := hn
      have hkj : k = j := by
        rcases Nat.lt_trichotomy k j with h | h | h
        · have e := hr k m2
          simp only [Memory.read, if_true] at e
          rw [if_neg (by omega), read_of_wfFrom_below n (j + 1) k n4 (by omega)] at e
          exact absurd e m3
        · exact h
        · have e := hr j n2
          simp only [Memory.read, if_true] at e
          rw [if_neg (by omega), read_of_wfFrom_below m (k + 1) j m4 (by omega)] at e
          exact absurd e.symm n3
      subst hkj
      have hv : v = w := by simpa [Memory.read] using hr k m2
      subst hv
      congr 1
      refine ih n (k + 1) m4 n4 fun b hb => ?_
      by_cases hbk : k = b
      · subst hbk
        rw [read_of_wfFrom_below m (k + 1) k m4 (by omega),
          read_of_wfFrom_below n (k + 1) k n4 (by omega)]
      · simpa [Memory.read, hbk] using hr b hb

theorem wf_ext {m n : Memory} (hm : Memory.wf m = true) (hn : Memory.wf n = true)
    (h : ∀ b, b < 256 → Memory.read m b = Memory.read n b) : m = n :=
  wfFrom_ext m n 0 hm hn h

/-- Reading a table after a whole-table write to it or to another one. -/
theorem readLut_writeTable (s : State) (c d : Chan) (t : List Byte) (b : Byte) :
    readLut (writeTable c t s) d b =
      if c = d then t.getD b.toNat (defEntry b.toNat) else readLut s d b := by
  unfold readLut writeTable setLut
  by_cases h : c = d
  · subst h; simp [read_ofTable]
  · have h' : c.val ≠ d.val := fun e => h (Fin.ext e)
    simp [h, Vector.getElem_set_ne, h']

end Sys2Proof.Machine
end

