-- ==== Sys2Proof/Laws/State.lean ====
section
/-! SUPPORT. One lemma per field per state update, each true by definition, so that no later proof unfolds a
record update. -/

namespace Sys2Proof.Machine

@[simp] theorem setPhase_phase (p : Phase) (s : State) :
    (setPhase p s).phase = p := rfl
@[simp] theorem setPhase_mask (p : Phase) (s : State) :
    (setPhase p s).mask = s.mask := rfl
@[simp] theorem setPhase_br (p : Phase) (s : State) :
    (setPhase p s).br = s.br := rfl
@[simp] theorem setPhase_lut (p : Phase) (s : State) :
    (setPhase p s).lut = s.lut := rfl
@[simp] theorem setPhase_rx (p : Phase) (s : State) :
    (setPhase p s).rx = s.rx := rfl
@[simp] theorem setPhase_pending (p : Phase) (s : State) :
    (setPhase p s).pending = s.pending := rfl
@[simp] theorem setPhase_cmdPort (p : Phase) (s : State) :
    (setPhase p s).cmdPort = s.cmdPort := rfl
@[simp] theorem setPhase_answers (p : Phase) (s : State) :
    (setPhase p s).answers = s.answers := rfl
@[simp] theorem setPhase_resetLine (p : Phase) (s : State) :
    (setPhase p s).resetLine = s.resetLine := rfl
@[simp] theorem setPhase_responses (p : Phase) (s : State) :
    (setPhase p s).responses = s.responses := rfl
@[simp] theorem setPhase_trace (p : Phase) (s : State) :
    (setPhase p s).trace = s.trace := rfl

@[simp] theorem setMask_phase (m : BitVec 18) (s : State) :
    (setMask m s).phase = s.phase := rfl
@[simp] theorem setMask_mask (m : BitVec 18) (s : State) :
    (setMask m s).mask = m := rfl
@[simp] theorem setMask_br (m : BitVec 18) (s : State) :
    (setMask m s).br = s.br := rfl
@[simp] theorem setMask_lut (m : BitVec 18) (s : State) :
    (setMask m s).lut = s.lut := rfl
@[simp] theorem setMask_rx (m : BitVec 18) (s : State) :
    (setMask m s).rx = s.rx := rfl
@[simp] theorem setMask_pending (m : BitVec 18) (s : State) :
    (setMask m s).pending = s.pending := rfl
@[simp] theorem setMask_cmdPort (m : BitVec 18) (s : State) :
    (setMask m s).cmdPort = s.cmdPort := rfl
@[simp] theorem setMask_answers (m : BitVec 18) (s : State) :
    (setMask m s).answers = s.answers := rfl
@[simp] theorem setMask_resetLine (m : BitVec 18) (s : State) :
    (setMask m s).resetLine = s.resetLine := rfl
@[simp] theorem setMask_responses (m : BitVec 18) (s : State) :
    (setMask m s).responses = s.responses := rfl
@[simp] theorem setMask_trace (m : BitVec 18) (s : State) :
    (setMask m s).trace = s.trace := rfl

@[simp] theorem setBr_phase (r : Vector Byte 18) (s : State) :
    (setBr r s).phase = s.phase := rfl
@[simp] theorem setBr_mask (r : Vector Byte 18) (s : State) :
    (setBr r s).mask = s.mask := rfl
@[simp] theorem setBr_br (r : Vector Byte 18) (s : State) :
    (setBr r s).br = r := rfl
@[simp] theorem setBr_lut (r : Vector Byte 18) (s : State) :
    (setBr r s).lut = s.lut := rfl
@[simp] theorem setBr_rx (r : Vector Byte 18) (s : State) :
    (setBr r s).rx = s.rx := rfl
@[simp] theorem setBr_pending (r : Vector Byte 18) (s : State) :
    (setBr r s).pending = s.pending := rfl
@[simp] theorem setBr_cmdPort (r : Vector Byte 18) (s : State) :
    (setBr r s).cmdPort = s.cmdPort := rfl
@[simp] theorem setBr_answers (r : Vector Byte 18) (s : State) :
    (setBr r s).answers = s.answers := rfl
@[simp] theorem setBr_resetLine (r : Vector Byte 18) (s : State) :
    (setBr r s).resetLine = s.resetLine := rfl
@[simp] theorem setBr_responses (r : Vector Byte 18) (s : State) :
    (setBr r s).responses = s.responses := rfl
@[simp] theorem setBr_trace (r : Vector Byte 18) (s : State) :
    (setBr r s).trace = s.trace := rfl

@[simp] theorem setLut_phase (l : Vector Memory 18) (s : State) :
    (setLut l s).phase = s.phase := rfl
@[simp] theorem setLut_mask (l : Vector Memory 18) (s : State) :
    (setLut l s).mask = s.mask := rfl
@[simp] theorem setLut_br (l : Vector Memory 18) (s : State) :
    (setLut l s).br = s.br := rfl
@[simp] theorem setLut_lut (l : Vector Memory 18) (s : State) :
    (setLut l s).lut = l := rfl
@[simp] theorem setLut_rx (l : Vector Memory 18) (s : State) :
    (setLut l s).rx = s.rx := rfl
@[simp] theorem setLut_pending (l : Vector Memory 18) (s : State) :
    (setLut l s).pending = s.pending := rfl
@[simp] theorem setLut_cmdPort (l : Vector Memory 18) (s : State) :
    (setLut l s).cmdPort = s.cmdPort := rfl
@[simp] theorem setLut_answers (l : Vector Memory 18) (s : State) :
    (setLut l s).answers = s.answers := rfl
@[simp] theorem setLut_resetLine (l : Vector Memory 18) (s : State) :
    (setLut l s).resetLine = s.resetLine := rfl
@[simp] theorem setLut_responses (l : Vector Memory 18) (s : State) :
    (setLut l s).responses = s.responses := rfl
@[simp] theorem setLut_trace (l : Vector Memory 18) (s : State) :
    (setLut l s).trace = s.trace := rfl

@[simp] theorem suspend_phase (sc : Script) (s : State) :
    (suspend sc s).phase = s.phase := rfl
@[simp] theorem suspend_mask (sc : Script) (s : State) :
    (suspend sc s).mask = s.mask := rfl
@[simp] theorem suspend_br (sc : Script) (s : State) :
    (suspend sc s).br = s.br := rfl
@[simp] theorem suspend_lut (sc : Script) (s : State) :
    (suspend sc s).lut = s.lut := rfl
@[simp] theorem suspend_rx (sc : Script) (s : State) :
    (suspend sc s).rx = s.rx := rfl
@[simp] theorem suspend_pending (sc : Script) (s : State) :
    (suspend sc s).pending = some sc := rfl
@[simp] theorem suspend_cmdPort (sc : Script) (s : State) :
    (suspend sc s).cmdPort = s.cmdPort := rfl
@[simp] theorem suspend_answers (sc : Script) (s : State) :
    (suspend sc s).answers = s.answers := rfl
@[simp] theorem suspend_resetLine (sc : Script) (s : State) :
    (suspend sc s).resetLine = s.resetLine := rfl
@[simp] theorem suspend_responses (sc : Script) (s : State) :
    (suspend sc s).responses = s.responses := rfl
@[simp] theorem suspend_trace (sc : Script) (s : State) :
    (suspend sc s).trace = s.trace := rfl

@[simp] theorem logWrite_phase (reg : Byte) (data : List Byte) (a : Answer) (rest : List Answer) (s : State) :
    (logWrite reg data a rest s).phase = s.phase := rfl
@[simp] theorem logWrite_mask (reg : Byte) (data : List Byte) (a : Answer) (rest : List Answer) (s : State) :
    (logWrite reg data a rest s).mask = s.mask := rfl
@[simp] theorem logWrite_br (reg : Byte) (data : List Byte) (a : Answer) (rest : List Answer) (s : State) :
    (logWrite reg data a rest s).br = s.br := rfl
@[simp] theorem logWrite_lut (reg : Byte) (data : List Byte) (a : Answer) (rest : List Answer) (s : State) :
    (logWrite reg data a rest s).lut = s.lut := rfl
@[simp] theorem logWrite_rx (reg : Byte) (data : List Byte) (a : Answer) (rest : List Answer) (s : State) :
    (logWrite reg data a rest s).rx = s.rx := rfl
@[simp] theorem logWrite_pending (reg : Byte) (data : List Byte) (a : Answer) (rest : List Answer) (s : State) :
    (logWrite reg data a rest s).pending = s.pending := rfl
@[simp] theorem logWrite_cmdPort (reg : Byte) (data : List Byte) (a : Answer) (rest : List Answer) (s : State) :
    (logWrite reg data a rest s).cmdPort = s.cmdPort := rfl
@[simp] theorem logWrite_answers (reg : Byte) (data : List Byte) (a : Answer) (rest : List Answer) (s : State) :
    (logWrite reg data a rest s).answers = rest := rfl
@[simp] theorem logWrite_resetLine (reg : Byte) (data : List Byte) (a : Answer) (rest : List Answer) (s : State) :
    (logWrite reg data a rest s).resetLine = s.resetLine := rfl
@[simp] theorem logWrite_responses (reg : Byte) (data : List Byte) (a : Answer) (rest : List Answer) (s : State) :
    (logWrite reg data a rest s).responses = s.responses := rfl
@[simp] theorem logWrite_trace (reg : Byte) (data : List Byte) (a : Answer) (rest : List Answer) (s : State) :
    (logWrite reg data a rest s).trace = s.trace ++ [busEntry reg data a] := rfl

@[simp] theorem endCommand_phase (w : Word) (s : State) :
    (endCommand w s).phase = s.phase := rfl
@[simp] theorem endCommand_mask (w : Word) (s : State) :
    (endCommand w s).mask = s.mask := rfl
@[simp] theorem endCommand_br (w : Word) (s : State) :
    (endCommand w s).br = s.br := rfl
@[simp] theorem endCommand_lut (w : Word) (s : State) :
    (endCommand w s).lut = s.lut := rfl
@[simp] theorem endCommand_rx (w : Word) (s : State) :
    (endCommand w s).rx = s.rx := rfl
@[simp] theorem endCommand_pending (w : Word) (s : State) :
    (endCommand w s).pending = none := rfl
@[simp] theorem endCommand_cmdPort (w : Word) (s : State) :
    (endCommand w s).cmdPort = s.cmdPort := rfl
@[simp] theorem endCommand_answers (w : Word) (s : State) :
    (endCommand w s).answers = s.answers := rfl
@[simp] theorem endCommand_resetLine (w : Word) (s : State) :
    (endCommand w s).resetLine = s.resetLine := rfl
@[simp] theorem endCommand_responses (w : Word) (s : State) :
    (endCommand w s).responses = s.responses ++ [w] := rfl
@[simp] theorem endCommand_trace (w : Word) (s : State) :
    (endCommand w s).trace = s.trace := rfl

@[simp] theorem setPort_phase (r p : List Word) (s : State) :
    (setPort r p s).phase = s.phase := rfl
@[simp] theorem setPort_mask (r p : List Word) (s : State) :
    (setPort r p s).mask = s.mask := rfl
@[simp] theorem setPort_br (r p : List Word) (s : State) :
    (setPort r p s).br = s.br := rfl
@[simp] theorem setPort_lut (r p : List Word) (s : State) :
    (setPort r p s).lut = s.lut := rfl
@[simp] theorem setPort_rx (r p : List Word) (s : State) :
    (setPort r p s).rx = r := rfl
@[simp] theorem setPort_pending (r p : List Word) (s : State) :
    (setPort r p s).pending = s.pending := rfl
@[simp] theorem setPort_cmdPort (r p : List Word) (s : State) :
    (setPort r p s).cmdPort = p := rfl
@[simp] theorem setPort_answers (r p : List Word) (s : State) :
    (setPort r p s).answers = s.answers := rfl
@[simp] theorem setPort_resetLine (r p : List Word) (s : State) :
    (setPort r p s).resetLine = s.resetLine := rfl
@[simp] theorem setPort_responses (r p : List Word) (s : State) :
    (setPort r p s).responses = s.responses := rfl
@[simp] theorem setPort_trace (r p : List Word) (s : State) :
    (setPort r p s).trace = s.trace := rfl

@[simp] theorem writeTable_phase (c : Chan) (t : List Byte) (s : State) :
    (writeTable c t s).phase = s.phase := rfl
@[simp] theorem writeTable_mask (c : Chan) (t : List Byte) (s : State) :
    (writeTable c t s).mask = s.mask := rfl
@[simp] theorem writeTable_br (c : Chan) (t : List Byte) (s : State) :
    (writeTable c t s).br = s.br := rfl
@[simp] theorem writeTable_lut (c : Chan) (t : List Byte) (s : State) :
    (writeTable c t s).lut = s.lut.set c (Memory.ofTable t) := rfl
@[simp] theorem writeTable_rx (c : Chan) (t : List Byte) (s : State) :
    (writeTable c t s).rx = s.rx := rfl
@[simp] theorem writeTable_pending (c : Chan) (t : List Byte) (s : State) :
    (writeTable c t s).pending = s.pending := rfl
@[simp] theorem writeTable_cmdPort (c : Chan) (t : List Byte) (s : State) :
    (writeTable c t s).cmdPort = s.cmdPort := rfl
@[simp] theorem writeTable_answers (c : Chan) (t : List Byte) (s : State) :
    (writeTable c t s).answers = s.answers := rfl
@[simp] theorem writeTable_resetLine (c : Chan) (t : List Byte) (s : State) :
    (writeTable c t s).resetLine = s.resetLine := rfl
@[simp] theorem writeTable_responses (c : Chan) (t : List Byte) (s : State) :
    (writeTable c t s).responses = s.responses := rfl
@[simp] theorem writeTable_trace (c : Chan) (t : List Byte) (s : State) :
    (writeTable c t s).trace = s.trace := rfl

@[simp] theorem setBrightness_phase (k : Chan) (v : Byte) (s : State) :
    (setBrightness k v s).phase = s.phase := rfl
@[simp] theorem setBrightness_mask (k : Chan) (v : Byte) (s : State) :
    (setBrightness k v s).mask = s.mask := rfl
@[simp] theorem setBrightness_br (k : Chan) (v : Byte) (s : State) :
    (setBrightness k v s).br = s.br.set k v := rfl
@[simp] theorem setBrightness_lut (k : Chan) (v : Byte) (s : State) :
    (setBrightness k v s).lut = s.lut := rfl
@[simp] theorem setBrightness_rx (k : Chan) (v : Byte) (s : State) :
    (setBrightness k v s).rx = s.rx := rfl
@[simp] theorem setBrightness_pending (k : Chan) (v : Byte) (s : State) :
    (setBrightness k v s).pending = s.pending := rfl
@[simp] theorem setBrightness_cmdPort (k : Chan) (v : Byte) (s : State) :
    (setBrightness k v s).cmdPort = s.cmdPort := rfl
@[simp] theorem setBrightness_answers (k : Chan) (v : Byte) (s : State) :
    (setBrightness k v s).answers = s.answers := rfl
@[simp] theorem setBrightness_resetLine (k : Chan) (v : Byte) (s : State) :
    (setBrightness k v s).resetLine = s.resetLine := rfl
@[simp] theorem setBrightness_responses (k : Chan) (v : Byte) (s : State) :
    (setBrightness k v s).responses = s.responses := rfl
@[simp] theorem setBrightness_trace (k : Chan) (v : Byte) (s : State) :
    (setBrightness k v s).trace = s.trace := rfl

@[simp] theorem respond_phase (d : BitVec 24) (s : State) :
    (respond d s).phase = s.phase := rfl
@[simp] theorem respond_mask (d : BitVec 24) (s : State) :
    (respond d s).mask = s.mask := rfl
@[simp] theorem respond_br (d : BitVec 24) (s : State) :
    (respond d s).br = s.br := rfl
@[simp] theorem respond_lut (d : BitVec 24) (s : State) :
    (respond d s).lut = s.lut := rfl
@[simp] theorem respond_rx (d : BitVec 24) (s : State) :
    (respond d s).rx = s.rx := rfl
@[simp] theorem respond_pending (d : BitVec 24) (s : State) :
    (respond d s).pending = none := rfl
@[simp] theorem respond_cmdPort (d : BitVec 24) (s : State) :
    (respond d s).cmdPort = s.cmdPort := rfl
@[simp] theorem respond_answers (d : BitVec 24) (s : State) :
    (respond d s).answers = s.answers := rfl
@[simp] theorem respond_resetLine (d : BitVec 24) (s : State) :
    (respond d s).resetLine = s.resetLine := rfl
@[simp] theorem respond_responses (d : BitVec 24) (s : State) :
    (respond d s).responses = s.responses ++ [okWord d] := rfl
@[simp] theorem respond_trace (d : BitVec 24) (s : State) :
    (respond d s).trace = s.trace := rfl

@[simp] theorem raise_phase (e : Err) (s : State) :
    (raise e s).phase = s.phase := rfl
@[simp] theorem raise_mask (e : Err) (s : State) :
    (raise e s).mask = s.mask := rfl
@[simp] theorem raise_br (e : Err) (s : State) :
    (raise e s).br = s.br := rfl
@[simp] theorem raise_lut (e : Err) (s : State) :
    (raise e s).lut = s.lut := rfl
@[simp] theorem raise_rx (e : Err) (s : State) :
    (raise e s).rx = s.rx := rfl
@[simp] theorem raise_pending (e : Err) (s : State) :
    (raise e s).pending = none := rfl
@[simp] theorem raise_cmdPort (e : Err) (s : State) :
    (raise e s).cmdPort = s.cmdPort := rfl
@[simp] theorem raise_answers (e : Err) (s : State) :
    (raise e s).answers = s.answers := rfl
@[simp] theorem raise_resetLine (e : Err) (s : State) :
    (raise e s).resetLine = s.resetLine := rfl
@[simp] theorem raise_responses (e : Err) (s : State) :
    (raise e s).responses = s.responses ++ [errWord e] := rfl
@[simp] theorem raise_trace (e : Err) (s : State) :
    (raise e s).trace = s.trace := rfl

@[simp] theorem takePacket_phase (rest : List Word) (s : State) :
    (takePacket rest s).phase = s.phase := rfl
@[simp] theorem takePacket_mask (rest : List Word) (s : State) :
    (takePacket rest s).mask = s.mask := rfl
@[simp] theorem takePacket_br (rest : List Word) (s : State) :
    (takePacket rest s).br = s.br := rfl
@[simp] theorem takePacket_lut (rest : List Word) (s : State) :
    (takePacket rest s).lut = s.lut := rfl
@[simp] theorem takePacket_rx (rest : List Word) (s : State) :
    (takePacket rest s).rx = [] := rfl
@[simp] theorem takePacket_pending (rest : List Word) (s : State) :
    (takePacket rest s).pending = s.pending := rfl
@[simp] theorem takePacket_cmdPort (rest : List Word) (s : State) :
    (takePacket rest s).cmdPort = rest := rfl
@[simp] theorem takePacket_answers (rest : List Word) (s : State) :
    (takePacket rest s).answers = s.answers := rfl
@[simp] theorem takePacket_resetLine (rest : List Word) (s : State) :
    (takePacket rest s).resetLine = s.resetLine := rfl
@[simp] theorem takePacket_responses (rest : List Word) (s : State) :
    (takePacket rest s).responses = s.responses := rfl
@[simp] theorem takePacket_trace (rest : List Word) (s : State) :
    (takePacket rest s).trace = s.trace := rfl

@[simp] theorem hardReset_phase (s : State) :
    (hardReset s).phase = .uninit := rfl
@[simp] theorem hardReset_mask (s : State) :
    (hardReset s).mask = Config.maskReset := rfl
@[simp] theorem hardReset_br (s : State) :
    (hardReset s).br = Vector.replicate 18 Config.brReset := rfl
@[simp] theorem hardReset_lut (s : State) :
    (hardReset s).lut = Vector.replicate 18 [] := rfl
@[simp] theorem hardReset_rx (s : State) :
    (hardReset s).rx = [] := rfl
@[simp] theorem hardReset_pending (s : State) :
    (hardReset s).pending = none := rfl
@[simp] theorem hardReset_cmdPort (s : State) :
    (hardReset s).cmdPort = s.cmdPort := rfl
@[simp] theorem hardReset_answers (s : State) :
    (hardReset s).answers = s.answers := rfl
@[simp] theorem hardReset_resetLine (s : State) :
    (hardReset s).resetLine = s.resetLine := rfl
@[simp] theorem hardReset_responses (s : State) :
    (hardReset s).responses = [] := rfl
@[simp] theorem hardReset_trace (s : State) :
    (hardReset s).trace = [] := rfl

@[simp] theorem hostSends_phase (ws : List Word) (s : State) :
    (hostSends ws s).phase = s.phase := rfl
@[simp] theorem hostSends_mask (ws : List Word) (s : State) :
    (hostSends ws s).mask = s.mask := rfl
@[simp] theorem hostSends_br (ws : List Word) (s : State) :
    (hostSends ws s).br = s.br := rfl
@[simp] theorem hostSends_lut (ws : List Word) (s : State) :
    (hostSends ws s).lut = s.lut := rfl
@[simp] theorem hostSends_rx (ws : List Word) (s : State) :
    (hostSends ws s).rx = s.rx := rfl
@[simp] theorem hostSends_pending (ws : List Word) (s : State) :
    (hostSends ws s).pending = s.pending := rfl
@[simp] theorem hostSends_cmdPort (ws : List Word) (s : State) :
    (hostSends ws s).cmdPort = s.cmdPort ++ ws := rfl
@[simp] theorem hostSends_answers (ws : List Word) (s : State) :
    (hostSends ws s).answers = s.answers := rfl
@[simp] theorem hostSends_resetLine (ws : List Word) (s : State) :
    (hostSends ws s).resetLine = s.resetLine := rfl
@[simp] theorem hostSends_responses (ws : List Word) (s : State) :
    (hostSends ws s).responses = s.responses := rfl
@[simp] theorem hostSends_trace (ws : List Word) (s : State) :
    (hostSends ws s).trace = s.trace := rfl

@[simp] theorem transportAnswers_phase (a : Answer) (s : State) :
    (transportAnswers a s).phase = s.phase := rfl
@[simp] theorem transportAnswers_mask (a : Answer) (s : State) :
    (transportAnswers a s).mask = s.mask := rfl
@[simp] theorem transportAnswers_br (a : Answer) (s : State) :
    (transportAnswers a s).br = s.br := rfl
@[simp] theorem transportAnswers_lut (a : Answer) (s : State) :
    (transportAnswers a s).lut = s.lut := rfl
@[simp] theorem transportAnswers_rx (a : Answer) (s : State) :
    (transportAnswers a s).rx = s.rx := rfl
@[simp] theorem transportAnswers_pending (a : Answer) (s : State) :
    (transportAnswers a s).pending = s.pending := rfl
@[simp] theorem transportAnswers_cmdPort (a : Answer) (s : State) :
    (transportAnswers a s).cmdPort = s.cmdPort := rfl
@[simp] theorem transportAnswers_answers (a : Answer) (s : State) :
    (transportAnswers a s).answers = s.answers ++ [a] := rfl
@[simp] theorem transportAnswers_resetLine (a : Answer) (s : State) :
    (transportAnswers a s).resetLine = s.resetLine := rfl
@[simp] theorem transportAnswers_responses (a : Answer) (s : State) :
    (transportAnswers a s).responses = s.responses := rfl
@[simp] theorem transportAnswers_trace (a : Answer) (s : State) :
    (transportAnswers a s).trace = s.trace := rfl

@[simp] theorem setResetLine_phase (b : Bool) (s : State) :
    (setResetLine b s).phase = s.phase := rfl
@[simp] theorem setResetLine_mask (b : Bool) (s : State) :
    (setResetLine b s).mask = s.mask := rfl
@[simp] theorem setResetLine_br (b : Bool) (s : State) :
    (setResetLine b s).br = s.br := rfl
@[simp] theorem setResetLine_lut (b : Bool) (s : State) :
    (setResetLine b s).lut = s.lut := rfl
@[simp] theorem setResetLine_rx (b : Bool) (s : State) :
    (setResetLine b s).rx = s.rx := rfl
@[simp] theorem setResetLine_pending (b : Bool) (s : State) :
    (setResetLine b s).pending = s.pending := rfl
@[simp] theorem setResetLine_cmdPort (b : Bool) (s : State) :
    (setResetLine b s).cmdPort = s.cmdPort := rfl
@[simp] theorem setResetLine_answers (b : Bool) (s : State) :
    (setResetLine b s).answers = s.answers := rfl
@[simp] theorem setResetLine_resetLine (b : Bool) (s : State) :
    (setResetLine b s).resetLine = b := rfl
@[simp] theorem setResetLine_responses (b : Bool) (s : State) :
    (setResetLine b s).responses = s.responses := rfl
@[simp] theorem setResetLine_trace (b : Bool) (s : State) :
    (setResetLine b s).trace = s.trace := rfl

end Sys2Proof.Machine
end

