-- ==== Sys2Proof/Laws/Ops.lean ====
section
/-! SUPPORT. One law per shared operation that says everything it can do: the checks before a command's
body, and a bus sequence run as far as the answers go. -/

namespace Sys2Proof.Machine

/-! ## The checks before a command's body -/

theorem requireReady_ready {s : State} (h : s.phase = .ready) (body : Result) :
    requireReady s body = body := by simp [requireReady, h]

theorem requireReady_notReady {s : State} (h : s.phase ≠ .ready) (body : Result) :
    requireReady s body = .next (raise .invalidState s) := by simp [requireReady, h, fail]

theorem channelOf_some {v : Nat} (h : v < 18) : channelOf v = some ⟨v, h⟩ := by
  simp [channelOf, h]

theorem channelOf_none {v : Nat} (h : 17 < v) : channelOf v = none := by
  simp [channelOf]; omega

theorem withChannel_valid {v : Nat} (h : v < 18) (s : State) (body : Chan → Result) :
    withChannel v s body = body ⟨v, h⟩ := by simp [withChannel, channelOf_some h]

theorem withChannel_invalid {v : Nat} (h : 17 < v) (s : State) (body : Chan → Result) :
    withChannel v s body = .next (raise .invalidSpecifier s) := by
  simp [withChannel, channelOf_none h, fail]

theorem withVector_valid {sel : BitVec 24} (h : sel.extractLsb' 18 6 = 0) (s : State)
    (body : BitVec 18 → Result) : withVector sel s body = body (sel.setWidth 18) := by
  simp [withVector, vectorOf, h]

theorem withVector_invalid {sel : BitVec 24} (h : sel.extractLsb' 18 6 ≠ 0) (s : State)
    (body : BitVec 18 → Result) : withVector sel s body = .next (raise .invalidSpecifier s) := by
  simp only [withVector, vectorOf, if_neg h, fail]

theorem withBrightness_valid {v : BitVec 16} (h : v.toNat ≤ 255) (s : State) (body : Byte → Result) :
    withBrightness v s body = body (v.setWidth 8) := by simp [withBrightness, brightnessOf, h]

theorem withBrightness_invalid {v : BitVec 16} (h : 255 < v.toNat) (s : State) (body : Byte → Result) :
    withBrightness v s body = .next (raise .invalidValue s) := by
  have : ¬ v.toNat ≤ 255 := by omega
  simp [withBrightness, brightnessOf, this, fail]

/-! ## Bus sequences -/

theorem runScript_finish (p : Option Phase) (s : State) :
    runScript (.finish p) s = respond 0 (setPhaseIf p s) := rfl

theorem runScript_write_ok {s : State} {as : List Answer} (h : s.answers = .ok :: as) (reg : Byte)
    (data : List Byte) (k : Script) :
    runScript (.write reg data k) s = runScript k (logWrite reg data .ok as s) := by
  simp [runScript, h]

theorem runScript_write_err {s : State} {e : Byte} {as : List Answer} (h : s.answers = .err e :: as)
    (reg : Byte) (data : List Byte) (k : Script) :
    runScript (.write reg data k) s = raise (.transportError e) (logWrite reg data (.err e) as s) := by
  simp [runScript, h]

theorem runScript_write_wait {s : State} (h : s.answers = []) (reg : Byte) (data : List Byte)
    (k : Script) : runScript (.write reg data k) s = suspend (.write reg data k) s := by
  simp [runScript, h]

theorem runScript_attempt_ok {s : State} {as : List Answer} (h : s.answers = .ok :: as) (reg : Byte)
    (data : List Byte) (k l : Script) :
    runScript (.attempt reg data k l) s = runScript k (logWrite reg data .ok as s) := by
  simp [runScript, h]

theorem runScript_attempt_err {s : State} {e : Byte} {as : List Answer} (h : s.answers = .err e :: as)
    (reg : Byte) (data : List Byte) (k l : Script) :
    runScript (.attempt reg data k l) s = runScript l (logWrite reg data (.err e) as s) := by
  simp [runScript, h]

theorem runScript_attempt_wait {s : State} (h : s.answers = []) (reg : Byte) (data : List Byte)
    (k l : Script) : runScript (.attempt reg data k l) s = suspend (.attempt reg data k l) s := by
  simp [runScript, h]

/-- What running a bus sequence leaves alone: the mask, the brightness registers, the tables and the
host's side. -/
structure BusFrame (s t : State) : Prop where
  mask : t.mask = s.mask
  br : t.br = s.br
  lut : t.lut = s.lut
  rx : t.rx = s.rx
  cmdPort : t.cmdPort = s.cmdPort
  resetLine : t.resetLine = s.resetLine

theorem BusFrame.refl (s : State) : BusFrame s s := ⟨rfl, rfl, rfl, rfl, rfl, rfl⟩

theorem BusFrame.trans {s t u : State} (h : BusFrame s t) (k : BusFrame t u) : BusFrame s u :=
  ⟨k.mask.trans h.mask, k.br.trans h.br, k.lut.trans h.lut, k.rx.trans h.rx,
    k.cmdPort.trans h.cmdPort, k.resetLine.trans h.resetLine⟩

theorem busFrame_logWrite (reg : Byte) (data : List Byte) (a : Answer) (as : List Answer) (s : State) :
    BusFrame s (logWrite reg data a as s) := ⟨rfl, rfl, rfl, rfl, rfl, rfl⟩

theorem busFrame_suspend (sc : Script) (s : State) : BusFrame s (suspend sc s) :=
  ⟨rfl, rfl, rfl, rfl, rfl, rfl⟩

theorem busFrame_endCommand (w : Word) (s : State) : BusFrame s (endCommand w s) :=
  ⟨rfl, rfl, rfl, rfl, rfl, rfl⟩

theorem busFrame_setPhaseIf (p : Option Phase) (s : State) : BusFrame s (setPhaseIf p s) := by
  cases p <;> exact ⟨rfl, rfl, rfl, rfl, rfl, rfl⟩

theorem runScript_frame (sc : Script) : ∀ s : State, BusFrame s (runScript sc s) := by
  induction sc with
  | finish p =>
    intro s
    exact (busFrame_setPhaseIf p s).trans (busFrame_endCommand _ _)
  | write reg data k ih =>
    intro s
    simp only [runScript]
    split
    · exact busFrame_suspend _ _
    · exact (busFrame_logWrite _ _ _ _ s).trans (ih _)
    · exact (busFrame_logWrite _ _ _ _ s).trans (busFrame_endCommand _ _)
  | attempt reg data k l ihk ihl =>
    intro s
    simp only [runScript]
    split
    · exact busFrame_suspend _ _
    · exact (busFrame_logWrite _ _ _ _ s).trans (ihk _)
    · exact (busFrame_logWrite _ _ _ _ s).trans (ihl _)

/-- How running a bus sequence ends: it has used up some answers and logged one transaction for each; and
either it produced one response, or it waits, with every answer used up and no response. -/
structure BusProgress (s t : State) : Prop where
  used : ∃ as es, s.answers = as ++ t.answers ∧ t.trace = s.trace ++ es ∧ es.map BusEntry.answer = as
  ending : (t.pending = none ∧ ∃ w, t.responses = s.responses ++ [w]) ∨
    (∃ sc, t.pending = some sc ∧ t.answers = [] ∧ t.responses = s.responses ∧ t.phase = s.phase)

theorem BusProgress.log {s t : State} {reg : Byte} {data : List Byte} {a : Answer} {as : List Answer}
    (h : s.answers = a :: as) (k : BusProgress (logWrite reg data a as s) t) : BusProgress s t := by
  obtain ⟨⟨bs, es, h1, h2, h3⟩, h4⟩ := k
  refine ⟨⟨a :: bs, busEntry reg data a :: es, ?_, ?_, ?_⟩, h4⟩
  · rw [h]
    simpa using h1
  · rw [h2]
    simp
  · simp [busEntry, h3]

theorem runScript_progress (sc : Script) : ∀ s : State, BusProgress s (runScript sc s) := by
  induction sc with
  | finish p =>
    intro s
    refine ⟨⟨[], [], ?_, ?_, rfl⟩, .inl ⟨rfl, okWord 0, ?_⟩⟩ <;>
      cases p <;> simp [runScript, setPhaseIf]
  | write reg data k ih =>
    intro s
    simp only [runScript]
    split
    · rename_i h
      exact ⟨⟨[], [], by simp, by simp, rfl⟩, .inr ⟨_, rfl, h, rfl, rfl⟩⟩
    · rename_i as h
      exact BusProgress.log h (ih _)
    · rename_i e as h
      refine BusProgress.log h ⟨⟨[], [], ?_, ?_, rfl⟩, .inl ⟨rfl, _, rfl⟩⟩ <;> simp
  | attempt reg data k l ihk ihl =>
    intro s
    simp only [runScript]
    split
    · rename_i h
      exact ⟨⟨[], [], by simp, by simp, rfl⟩, .inr ⟨_, rfl, h, rfl, rfl⟩⟩
    · rename_i as h
      exact BusProgress.log h (ihk _)
    · rename_i e as h
      exact BusProgress.log h (ihl _)

/-- Every way a command can end, with the state its bus part starts from: an error before any write, a
response, or a bus sequence. -/
theorem emitMask_eq (s : State) : emitMask s = .next (runScript (committedScript regMask (pack s.mask)) s) :=
  rfl

theorem emitPwm_eq (s : State) :
    emitPwm s = .next (runScript (committedScript regPwm (pwmPayload s)) s) := rfl

end Sys2Proof.Machine
end

