-- ==== Sys2Proof/Laws/Exec.lean ====
section
/-! SUPPORT. What any command can do, said once (`exec_cases`): it ends in a validation error with nothing
changed; or it responds, after its own register updates and no bus write; or it starts a bus sequence, after
its own register updates. What these updates and sequences can be is `Updated` and `Launched`. -/

namespace Sys2Proof.Machine

/-- The errors found before anything is changed (60_exceptions.md R200). -/
def isValidation : Err → Bool
  | .invalidSpecifier => true
  | .invalidConfig => false
  | .invalidGammaTable => true
  | .invalidValue => true
  | .invalidState => true
  | .transportError _ => false
  | .illegalCommand => false

/-- The register updates command `i` may make in state `s`: only its own family's registers change, and
canonical tables stay canonical. -/
structure Updated (i : Instr) (s u : State) : Prop where
  rx : u.rx = s.rx
  cmdPort : u.cmdPort = s.cmdPort
  answers : u.answers = s.answers
  resetLine : u.resetLine = s.resetLine
  responses : u.responses = s.responses
  trace : u.trace = s.trace
  br : writesBrightness i = false → u.br = s.br
  lut : writesTables i = false → u.lut = s.lut
  mask : writesMask i = false → i ≠ .openCmd → i ≠ .closeCmd → u.mask = s.mask
  phase : i ≠ .closeCmd → u.phase = s.phase
  tables : (∀ c : Chan, Memory.wf s.lut[c] = true) → ∀ c : Chan, Memory.wf u.lut[c] = true

theorem Updated.refl (i : Instr) (s : State) : Updated i s s :=
  ⟨rfl, rfl, rfl, rfl, rfl, rfl, fun _ => rfl, fun _ => rfl, fun _ _ _ => rfl, fun _ => rfl, id⟩

theorem updated_setMask {i : Instr} (h : writesMask i = true) (m : BitVec 18) (s : State) :
    Updated i s (setMask m s) :=
  ⟨rfl, rfl, rfl, rfl, rfl, rfl, fun _ => rfl, fun _ => rfl, fun hn => by simp [h] at hn, fun _ => rfl, id⟩

theorem updated_setBr {i : Instr} (h : writesBrightness i = true) (r : Vector Byte 18) (s : State) :
    Updated i s (setBr r s) :=
  ⟨rfl, rfl, rfl, rfl, rfl, rfl, fun hn => by simp [h] at hn, fun _ => rfl, fun _ _ _ => rfl,
    fun _ => rfl, id⟩

theorem tables_writeTable {s : State} {c : Chan} {t : List Byte} (ht : t.length ≤ 256)
    (h : ∀ d : Chan, Memory.wf s.lut[d] = true) (d : Chan) :
    Memory.wf (writeTable c t s).lut[d] = true := by
  simp only [writeTable_lut]
  by_cases hc : c.val = d.val
  · simp [hc, wf_ofTable ht]
  · simpa [Vector.getElem_set_ne, hc] using h d

theorem updated_writeTable {i : Instr} (h : writesTables i = true) {c : Chan} {t : List Byte}
    (ht : t.length ≤ 256) (s : State) : Updated i s (writeTable c t s) :=
  ⟨rfl, rfl, rfl, rfl, rfl, rfl, fun _ => rfl, fun hn => by simp [h] at hn, fun _ _ _ => rfl,
    fun _ => rfl, fun hs => tables_writeTable ht hs⟩

theorem Updated.trans {i : Instr} {s t u : State} (h : Updated i s t) (k : Updated i t u) :
    Updated i s u :=
  ⟨k.rx.trans h.rx, k.cmdPort.trans h.cmdPort, k.answers.trans h.answers,
    k.resetLine.trans h.resetLine, k.responses.trans h.responses, k.trace.trans h.trace,
    fun hn => (k.br hn).trans (h.br hn), fun hn => (k.lut hn).trans (h.lut hn),
    fun hn h1 h2 => (k.mask hn h1 h2).trans (h.mask hn h1 h2),
    fun h1 => (k.phase h1).trans (h.phase h1), fun hs => k.tables (h.tables hs)⟩

theorem updated_foldl_reset {i : Instr} (h : writesTables i = true) (cs : List Chan) :
    ∀ s : State, Updated i s (cs.foldl (fun t c => writeTable c defTable t) s) := by
  induction cs with
  | nil => exact fun s => Updated.refl i s
  | cons c cs ih =>
    intro s
    exact (updated_writeTable h (by rw [defTable_length]) s).trans (ih _)

/-- A bus sequence a command may start in phase `p`. -/
structure Launched (p : Phase) (sc : Script) : Prop where
  fits : pendingFitsPhase p sc = true
  disciplined : scriptDisciplined false sc = true

theorem pack_length (m : BitVec 18) : (pack m).length = 3 := rfl

theorem packGroup_le (m : BitVec 18) (g : Nat) : (packGroup m g).toNat ≤ 0x3F := by
  have h : (m >>> (6 * g) &&& 0x3F).toNat ≤ 0x3F := by
    rw [BitVec.toNat_and]
    exact Nat.and_le_right
  simp only [packGroup, BitVec.toNat_setWidth]
  exact (Nat.mod_le _ _).trans h

theorem busWriteLegal_mask (m : BitVec 18) : busWriteLegal 0x13 (pack m) = true := by
  have : (pack m).all (fun b => decide (b.toNat ≤ 0x3F)) = true := by
    simp only [pack, List.all_cons, List.all_nil, Bool.and_true, Bool.and_eq_true, decide_eq_true_eq]
    exact ⟨packGroup_le m 0, packGroup_le m 1, packGroup_le m 2⟩
  simp [busWriteLegal, this, pack_length]

theorem pwmPayload_length (s : State) : (pwmPayload s).length = 18 := by simp [pwmPayload]

theorem busWriteLegal_pwm (s : State) : busWriteLegal 0x01 (pwmPayload s) = true := by
  simp [busWriteLegal, pwmPayload_length]

theorem busWriteLegal_commit : busWriteLegal regCommit commitData = true := by decide

/-- A data write with its commit is a bus sequence of the right form. -/
theorem launched_committed {reg : Byte} {data : List Byte} (hw : busWriteLegal reg data = true)
    (hd : isDataWrite reg = true) (hc : reg ≠ 0x16) : Launched .ready (committedScript reg data) := by
  constructor
  · simp [committedScript, pendingFitsPhase, scriptWrites, scriptEndsIn]
  · simp only [committedScript, scriptDisciplined, hw, hd, hc, busWriteLegal_commit]
    decide

theorem launched_emitMask (m : BitVec 18) : Launched .ready (committedScript regMask (pack m)) :=
  launched_committed (busWriteLegal_mask m) (by decide) (by decide)

theorem launched_emitPwm (s : State) : Launched .ready (committedScript regPwm (pwmPayload s)) :=
  launched_committed (busWriteLegal_pwm s) (by decide) (by decide)

theorem launched_open : Launched .uninit (openScript 0) := ⟨by decide, by decide⟩

theorem launched_close : Launched .ready (closeScript 0) := ⟨by decide, by decide⟩

theorem launched_outOn : Launched .ready (singleScript regOutEn outOn) := ⟨by decide, by decide⟩

theorem launched_outOff : Launched .ready (singleScript regOutEn outOff) := ⟨by decide, by decide⟩

theorem launched_chipReset : Launched .ready (singleScript regReset resetData) :=
  ⟨by decide, by decide⟩

/-- The three things a command can do in state `s`. -/
inductive Did (i : Instr) (s : State) : Result → Prop where
  | failed (e : Err) (h : isValidation e = true) : Did i s (.next (raise e s))
  | responded (d : BitVec 24) (u : State) (h : Updated i s u)
      (hp : i ≠ .closeCmd ∨ (s.phase ≠ .ready ∧ u.phase = .disposed ∧ u.mask = s.mask ∧ d = 0)) :
      Did i s (.next (respond d u))
  | launched (sc : Script) (u : State) (h : Updated i s u) (hp : u.phase = s.phase)
      (hl : Launched u.phase sc) (hc : i = .closeCmd → sc = closeScript 0)
      (ho : i ≠ .openCmd → i ≠ .closeCmd → scriptEndsIn none sc = true) :
      Did i s (.next (runScript sc u))

theorem did_requireReady {i : Instr} {s : State} {body : Result}
    (h : s.phase = .ready → Did i s body) : Did i s (requireReady s body) := by
  by_cases hp : s.phase = .ready
  · rw [requireReady_ready hp]; exact h hp
  · rw [requireReady_notReady hp]; exact .failed _ rfl

theorem did_withChannel {i : Instr} {s : State} {v : Nat} {body : Chan → Result}
    (h : ∀ c : Chan, c.val = v → Did i s (body c)) : Did i s (withChannel v s body) := by
  by_cases hv : v < 18
  · rw [withChannel_valid hv]; exact h _ rfl
  · rw [withChannel_invalid (by omega)]; exact .failed _ rfl

theorem did_withVector {i : Instr} {s : State} {sel : BitVec 24} {body : BitVec 18 → Result}
    (h : ∀ m, Did i s (body m)) : Did i s (withVector sel s body) := by
  by_cases hv : sel.extractLsb' 18 6 = 0
  · rw [withVector_valid hv]; exact h _
  · rw [withVector_invalid hv]; exact .failed _ rfl

theorem did_withBrightness {i : Instr} {s : State} {v : BitVec 16} {body : Byte → Result}
    (h : ∀ b, Did i s (body b)) : Did i s (withBrightness v s body) := by
  by_cases hv : v.toNat ≤ 255
  · rw [withBrightness_valid hv]; exact h _
  · rw [withBrightness_invalid (by omega)]; exact .failed _ rfl

theorem did_emitMask {i : Instr} {s : State} (h : writesMask i = true) (hp : s.phase = .ready)
    (m : BitVec 18) : Did i s (emitMask (setMask m s)) :=
  .launched _ _ (updated_setMask h m s) rfl
    (by simpa [hp] using launched_emitMask m)
    (fun hc => by subst hc; simp [writesMask] at h) (fun _ _ => rfl)

theorem did_emitPwm {i : Instr} {s : State} (h : writesBrightness i = true) (hp : s.phase = .ready)
    (r : Vector Byte 18) : Did i s (emitPwm (setBr r s)) :=
  .launched _ _ (updated_setBr h r s) rfl
    (by simpa [hp] using launched_emitPwm (setBr r s))
    (fun hc => by subst hc; simp [writesBrightness] at h) (fun _ _ => rfl)

theorem did_respond {i : Instr} {s u : State} {d : BitVec 24} (hi : i ≠ .closeCmd)
    (h : Updated i s u) : Did i s (answerWith d u) := .responded d u h (.inl hi)

/-- What any command can do, in any state. -/
theorem exec_cases (i : Instr) (s : State) : Did i s (exec i s) := by
  cases i with
  | openCmd =>
    by_cases hp : s.phase = .uninit
    · simp only [exec, execOpen, hp, ne_eq, not_true_eq_false, if_false]
      refine .launched _ _ ⟨rfl, rfl, rfl, rfl, rfl, rfl, fun _ => rfl, fun _ => rfl, fun _ h => absurd rfl h,
        fun _ => rfl, id⟩ rfl (by simpa [hp] using launched_open) (fun hc => by simp at hc)
        (fun h => absurd rfl h)
    · simp only [exec, execOpen, hp, ne_eq, not_false_eq_true, if_true]
      exact .failed _ rfl
  | closeCmd =>
    by_cases hp : s.phase = .ready
    · simp only [exec, execClose, hp, if_true]
      refine .launched _ _ ⟨rfl, rfl, rfl, rfl, rfl, rfl, fun _ => rfl, fun _ => rfl,
        fun _ _ h => absurd rfl h, fun h => absurd rfl h, id⟩ rfl (by simpa [hp] using launched_close)
        (fun _ => rfl) (fun _ h => absurd rfl h)
    · simp only [exec, execClose, hp, if_false]
      exact .responded _ _ ⟨rfl, rfl, rfl, rfl, rfl, rfl, fun _ => rfl, fun _ => rfl, fun _ _ h => absurd rfl h,
        fun h => absurd rfl h, id⟩ (.inr ⟨hp, rfl, rfl, rfl⟩)
  | outEnable =>
    exact did_requireReady fun hp => .launched _ _ (Updated.refl _ _) rfl
      (by simpa [hp] using launched_outOn) (fun hc => by simp at hc) (fun _ _ => rfl)
  | outDisable =>
    exact did_requireReady fun hp => .launched _ _ (Updated.refl _ _) rfl
      (by simpa [hp] using launched_outOff) (fun hc => by simp at hc) (fun _ _ => rfl)
  | chipReset =>
    exact did_requireReady fun hp => .launched _ _ (Updated.refl _ _) rfl
      (by simpa [hp] using launched_chipReset) (fun hc => by simp at hc) (fun _ _ => rfl)
  | chOnV sel => exact did_requireReady fun hp => did_withVector fun _ => did_emitMask rfl hp _
  | chOffV sel => exact did_requireReady fun hp => did_withVector fun _ => did_emitMask rfl hp _
  | chOnI ch => exact did_requireReady fun hp => did_withChannel fun _ _ => did_emitMask rfl hp _
  | chOffI ch => exact did_requireReady fun hp => did_withChannel fun _ _ => did_emitMask rfl hp _
  | allOn => exact did_requireReady fun hp => did_emitMask rfl hp _
  | allOff => exact did_requireReady fun hp => did_emitMask rfl hp _
  | maskLoad sel => exact did_requireReady fun hp => did_withVector fun _ => did_emitMask rfl hp _
  | isSet ch =>
    exact did_requireReady fun _ => did_withChannel fun _ _ => did_respond (by simp) (Updated.refl _ _)
  | maskRead => exact did_requireReady fun _ => did_respond (by simp) (Updated.refl _ _)
  | gammaSet ch es =>
    refine did_requireReady fun _ => did_withChannel fun c _ => ?_
    by_cases hl : es.length = 256
    · simp only [hl, ne_eq, not_true_eq_false, if_false]
      split
      · exact .failed _ rfl
      · exact did_respond (by simp) (updated_writeTable rfl (by simp [tableOf, hl]) s)
    · simp only [hl, ne_eq, not_false_eq_true, if_true]
      exact .failed _ rfl
  | gammaReset ch =>
    exact did_requireReady fun _ => did_withChannel fun _ _ =>
      did_respond (by simp) (updated_writeTable rfl (by rw [defTable_length]) s)
  | gammaResetAll =>
    exact did_requireReady fun _ => did_respond (by simp) (updated_foldl_reset rfl _ s)
  | translate ch val =>
    exact did_requireReady fun _ => did_withChannel fun _ _ => did_withBrightness fun _ =>
      did_respond (by simp) (Updated.refl _ _)
  | brightSet ch val =>
    exact did_requireReady fun hp => did_withChannel fun _ _ => did_withBrightness fun _ =>
      did_emitPwm rfl hp _
  | brightBulk ps =>
    refine did_requireReady fun hp => ?_
    split
    · exact .failed _ rfl
    · split
      · exact .failed _ rfl
      · exact did_emitPwm rfl hp _

end Sys2Proof.Machine
end

