-- ==== Sys2Proof/Laws/PerInstr.lean ====
section
/-! SUPPORT. Statements made per instruction. `Framing`: the header of a well-formed instruction's packet tells
the number of its payload words (30_encoding.md R72), so packets can be cut from the command stream. -/

namespace Sys2Proof.Laws.Framing

/-- The packet of a well-formed instruction is one header word and as many payload words as the header
tells (R72). -/
def Statement (i : Instr) : Prop :=
  i.wf = true → ∃ h payload, encode i = h :: payload ∧ payloadLength h = payload.length

/-- An instruction whose header makes a packet alone. -/
theorem of_header {i : Instr} {o : Opcode} {a : BitVec 24} (he : encode i = [headerWord o a])
    (hr : a &&& o.format.reserved = 0) (ho : ∀ h, ∃ j, headerOperands h o = .single j) :
    Statement i := by
  intro _
  obtain ⟨j, hj⟩ := ho (headerWord o a)
  exact ⟨_, [], he, by simp [payloadLength, decodeHeader_headerWord hr, hj]⟩

/-- The 16-bit `LEN` field holds the number of payload words of a well-formed instruction. -/
theorem len_field {n : Nat} (h : payloadFits n = true) : (BitVec.ofNat 16 n).toNat = n := by
  have : n < 65536 := by simpa [payloadFits] using h
  simp; omega

theorem openCmd : Statement (.openCmd) :=
  of_header rfl (by decide) fun _ => ⟨_, rfl⟩

theorem closeCmd : Statement (.closeCmd) :=
  of_header rfl (by decide) fun _ => ⟨_, rfl⟩

theorem outEnable : Statement (.outEnable) :=
  of_header rfl (by decide) fun _ => ⟨_, rfl⟩

theorem outDisable : Statement (.outDisable) :=
  of_header rfl (by decide) fun _ => ⟨_, rfl⟩

theorem chipReset : Statement (.chipReset) :=
  of_header rfl (by decide) fun _ => ⟨_, rfl⟩

theorem chOnV (sel : BitVec 24) : Statement (.chOnV sel) :=
  of_header rfl BitVec.and_zero fun _ => ⟨_, rfl⟩

theorem chOffV (sel : BitVec 24) : Statement (.chOffV sel) :=
  of_header rfl BitVec.and_zero fun _ => ⟨_, rfl⟩

theorem chOnI (ch : BitVec 5) : Statement (.chOnI ch) :=
  of_header rfl (argC_reserved _) fun _ => ⟨_, rfl⟩

theorem chOffI (ch : BitVec 5) : Statement (.chOffI ch) :=
  of_header rfl (argC_reserved _) fun _ => ⟨_, rfl⟩

theorem allOn : Statement (.allOn) :=
  of_header rfl (by decide) fun _ => ⟨_, rfl⟩

theorem allOff : Statement (.allOff) :=
  of_header rfl (by decide) fun _ => ⟨_, rfl⟩

theorem maskLoad (sel : BitVec 24) : Statement (.maskLoad sel) :=
  of_header rfl BitVec.and_zero fun _ => ⟨_, rfl⟩

theorem isSet (ch : BitVec 5) : Statement (.isSet ch) :=
  of_header rfl (argC_reserved _) fun _ => ⟨_, rfl⟩

theorem maskRead : Statement (.maskRead) :=
  of_header rfl (by decide) fun _ => ⟨_, rfl⟩

theorem gammaSet (ch : BitVec 5) (entries : List Word) : Statement (.gammaSet ch entries) := by
  intro hw
  refine ⟨_, entries, rfl, ?_⟩
  simp only [payloadLength, decodeHeader_headerWord (o := .gammaSet) (argCV_reserved _ _), headerOperands,
    headerVal_headerWord]
  exact len_field hw

theorem gammaReset (ch : BitVec 5) : Statement (.gammaReset ch) :=
  of_header rfl (argC_reserved _) fun _ => ⟨_, rfl⟩

theorem gammaResetAll : Statement (.gammaResetAll) :=
  of_header rfl (by decide) fun _ => ⟨_, rfl⟩

theorem translate (ch : BitVec 5) (val : BitVec 16) : Statement (.translate ch val) :=
  of_header rfl (argCV_reserved _ _) fun _ => ⟨_, rfl⟩

theorem brightSet (ch : BitVec 5) (val : BitVec 16) : Statement (.brightSet ch val) :=
  of_header rfl (argCV_reserved _ _) fun _ => ⟨_, rfl⟩

theorem brightBulk (pairs : List BrightPair) : Statement (.brightBulk pairs) := by
  intro hw
  refine ⟨_, pairs.map wordOfPair, rfl, ?_⟩
  simp only [payloadLength, decodeHeader_headerWord (o := .brightBulk) (argL_reserved _), headerOperands,
    headerVal_argL, List.length_map]
  exact len_field hw

end Sys2Proof.Laws.Framing
end

