-- ==== Sys2Proof/Laws/Run.lean ====
section
/-! SUPPORT. What the reset input can do, and what a sequence of moves can lead to. -/

namespace Sys2Proof.Machine

theorem busy_eq_false {s : State} : busy s = false ↔ s.rx = [] ∧ s.pending = none := by
  simp [busy]

/-- Everything reset can do: refused during a command, else the reset state at the given level. -/
theorem resetTo_cases (level : Bool) (s : State) :
    (busy s = true ∧ resetTo level s = .refused .resetDuringCommand) ∨
    (busy s = false ∧ resetTo level s = .next (setResetLine level (hardReset s))) := by
  cases h : busy s <;> simp [resetTo, h]

/-- What driving the reset input leads to, when it is given a meaning. -/
theorem driveReset_next {level : Bool} {s t : State} (h : driveReset level s = .next t) :
    (level = false ∧ s.resetLine = false ∧ t = s) ∨
    (busy s = false ∧ t = setResetLine level (hardReset s)) := by
  by_cases hl : (level || s.resetLine) = true
  · rw [driveReset, if_pos hl] at h
    rcases resetTo_cases level s with ⟨_, hr⟩ | ⟨hb, hr⟩
    · rw [hr] at h
      cases h
    · rw [hr] at h
      cases h
      exact .inr ⟨hb, rfl⟩
  · rw [driveReset, if_neg hl] at h
    cases h
    simp only [Bool.or_eq_true, not_or, Bool.not_eq_true] at hl
    exact .inl ⟨hl.1, hl.2, rfl⟩

theorem hardReset_hardReset (s : State) : hardReset (hardReset s) = hardReset s := rfl

/-- An asserted reset leaves the state as the reset state. -/
theorem hardReset_setResetLine (level : Bool) (s : State) :
    hardReset (setResetLine level (hardReset s)) = setResetLine level (hardReset s) := rfl

/-- What one move leads to in the engine. -/
theorem makeMove_engine {m : Move} {w v : World} (h : makeMove m w = .next v) :
    step w.engine = .next v.engine ∨ (∃ ws, v.engine = hostSends ws w.engine) ∨
    v.engine = w.engine ∨ (∃ level, driveReset level w.engine = .next v.engine) ∨
    ∃ a, v.engine = transportAnswers a w.engine := by
  have carried : ∀ {r : Result}, carry w r = .next v → r = .next v.engine := by
    intro r hr
    cases r <;> simp only [carry] at hr <;> cases hr
    rfl
  cases m with
  | step => exact .inl (carried h)
  | send ws => cases h; exact .inr (.inl ⟨ws, rfl⟩)
  | take => cases h; exact .inr (.inr (.inl rfl))
  | line level => exact .inr (.inr (.inr (.inl ⟨level, carried h⟩)))
  | answer a => cases h; exact .inr (.inr (.inr (.inr ⟨a, rfl⟩)))

theorem makeMove_reachable {m : Move} {w v : World} (h : makeMove m w = .next v)
    (hw : Reachable w.engine) : Reachable v.engine := by
  rcases makeMove_engine h with h | ⟨ws, h⟩ | h | ⟨level, h⟩ | ⟨a, h⟩
  · exact .step hw h
  · rw [h]; exact .words ws hw
  · rw [h]; exact hw
  · exact .line level hw h
  · rw [h]; exact .answer a hw

/-- A sequence of moves leads to reachable engine states only. -/
theorem play_reachable (ms : List Move) : ∀ {w v : World}, Reachable w.engine →
    play ms w = .next v → Reachable v.engine := by
  induction ms with
  | nil => intro w v hw h; cases h; exact hw
  | cons m ms ih =>
    intro w v hw h
    simp only [play] at h
    split at h
    · rename_i u hu
      exact ih (makeMove_reachable hu hw) h
    · cases h
    · cases h

/-- A run that is over has its result, and nothing is outstanding in it. -/
theorem runOver_iff (s : State) : runOver s = true ↔
    s.resetLine = false ∧ s.cmdPort = [] ∧ s.rx = [] ∧ s.pending = none := by
  simp [runOver, busy, and_assoc]

theorem runResult_of_over {s : State} (h : runOver s = true) :
    runResult s = some { final := s, responses := s.responses, trace := s.trace } := by
  simp [runResult, h]

/-- An unanswered write keeps a run from being over. -/
theorem runResult_awaiting {s : State} (h : s.pending.isSome = true) : runResult s = none := by
  simp [runResult, runOver, busy, h]

end Sys2Proof.Machine
end

