-- ==== Sys2Proof/Laws/Trace.lean ====
section
/-! SUPPORT. What running a disciplined bus sequence does to the trace, the responses and the phase: the laws
behind the invariant of Safety.lean. -/

namespace Sys2Proof.Machine

theorem commitOrder_append (xs ys : List BusEntry) :
    ∀ owes, commitOrder owes (xs ++ ys) = (commitOrder owes xs && commitOrder (owesAfter owes xs) ys) := by
  induction xs with
  | nil => intro owes; simp [commitOrder, owesAfter]
  | cons x xs ih => intro owes; simp [commitOrder, owesAfter, ih, Bool.and_assoc]

theorem owesAfter_append (xs ys : List BusEntry) :
    ∀ owes, owesAfter owes (xs ++ ys) = owesAfter (owesAfter owes xs) ys := by
  induction xs with
  | nil => intro owes; rfl
  | cons x xs ih => intro owes; simp [owesAfter, ih]

/-- The response of every command that ends is one the engine may produce. -/
theorem responseLegal_ok (d : BitVec 24) : responseLegal (okWord d) = true := by
  have h1 : responseStatus (okWord d) = 0 := by
    apply BitVec.eq_of_getLsbD_eq
    intro i hi
    simp [responseStatus, okWord, responseWord, statusOk, BitVec.getLsbD_of_ge d (28 + i) (by omega)]
  have h2 : (okWord d).extractLsb' 24 4 = 0 := by
    apply BitVec.eq_of_getLsbD_eq
    intro i hi
    simp [okWord, responseWord, statusOk]
  simp [responseLegal, h1, h2]

theorem responseStatus_ok (d : BitVec 24) : responseStatus (okWord d) = 0 := by
  apply BitVec.eq_of_getLsbD_eq
  intro i hi
  simp [responseStatus, okWord, responseWord, statusOk, BitVec.getLsbD_of_ge d (28 + i) (by omega)]

theorem responseStatus_err (e : Err) : responseStatus (errWord e) = errStatus e := by
  cases e with
  | transportError e =>
    apply BitVec.eq_of_getLsbD_eq
    intro i hi
    have : ∀ j : Fin 4, (0x60000000#32).getLsbD (28 + j.val) = (6#4).getLsbD j.val := by decide
    have h6 := this ⟨i, hi⟩
    simp only at h6
    simp [responseStatus, errWord, responseWord, errStatus, errData, hi,
      BitVec.getLsbD_of_ge e (28 + i) (by omega), h6]
  | _ => decide

theorem responseLegal_err {e : Err} (h : e ≠ .invalidConfig) : responseLegal (errWord e) = true := by
  cases e with
  | invalidConfig => exact absurd rfl h
  | transportError e =>
    have h1 := responseStatus_err (.transportError e)
    have h2 : (errWord (.transportError e)).extractLsb' 24 4 = 0 := by
      apply BitVec.eq_of_getLsbD_eq
      intro i hi
      have : ∀ j : Fin 4, (0x60000000#32).getLsbD (24 + j.val) = false := by decide
      have h6 := this ⟨i, hi⟩
      simp only at h6
      simp [errWord, responseWord, errStatus, errData, BitVec.getLsbD_of_ge e (24 + i) (by omega), h6]
    have h3 : (responseData (errWord (.transportError e))).extractLsb' 8 16 = 0 := by
      apply BitVec.eq_of_getLsbD_eq
      intro i hi
      have : ∀ j : Fin 16, (0x60000000#32).getLsbD (8 + j.val) = false := by decide
      have h6 := this ⟨i, hi⟩
      simp only at h6
      simp [responseData, errWord, responseWord, errStatus, errData, h6]
    simp [responseLegal, h1, h2, h3, errStatus]
  | _ => decide

/-- What a run of a bus sequence adds, when the sequence is disciplined for what is owed. -/
structure TraceKept (s t : State) : Prop where
  writes : (∀ e ∈ s.trace, e.target = 0x54 ∧ busWriteLegal e.reg e.data = true) →
    ∀ e ∈ t.trace, e.target = 0x54 ∧ busWriteLegal e.reg e.data = true
  commits : commitOrder false s.trace = true → commitOrder false t.trace = true
  responses : (∀ w ∈ s.responses, responseLegal w = true) → ∀ w ∈ t.responses, responseLegal w = true
  pending : (t.pending = none ∧ owesAfter false t.trace = false) ∨
    ∃ sc, t.pending = some sc ∧ scriptWrites sc = true ∧
      scriptDisciplined (owesAfter false t.trace) sc = true ∧ t.phase = s.phase

theorem TraceKept.log {s t : State} {reg : Byte} {data : List Byte} {a : Answer} {as : List Answer}
    (hw : busWriteLegal reg data = true) (hc : (decide (reg = 0x16) == owesAfter false s.trace) = true)
    (k : TraceKept (logWrite reg data a as s) t) : TraceKept s t := by
  refine ⟨fun h => k.writes ?_, fun h => k.commits ?_, k.responses, ?_⟩
  · intro e he
    simp only [logWrite_trace, List.mem_append, List.mem_singleton] at he
    rcases he with he | he
    · exact h e he
    · subst he
      exact ⟨rfl, hw⟩
  · simp only [logWrite_trace, commitOrder_append, h, Bool.true_and]
    simp only [commitOrder, busEntry, Bool.and_true]
    exact hc
  · simpa using k.pending

theorem owesAfter_log (reg : Byte) (data : List Byte) (a : Answer) (as : List Answer) (s : State) :
    owesAfter false (logWrite reg data a as s).trace = (isDataWrite reg && decide (a = .ok)) := by
  simp [owesAfter_append, owesAfter, entryOwes, busEntry]

theorem traceKept_end {s : State} {w : Word} (hw : responseLegal w = true)
    (ho : owesAfter false s.trace = false) : TraceKept s (endCommand w s) := by
  refine ⟨id, id, fun h x hx => ?_, .inl ⟨rfl, by simpa using ho⟩⟩
  simp only [endCommand_responses, List.mem_append, List.mem_singleton] at hx
  rcases hx with hx | hx
  · exact h x hx
  · subst hx
    exact hw

/-- Running a disciplined bus sequence keeps the trace in order, and what is left of it, if it waits, is
disciplined for what the trace then owes. -/
theorem runScript_traceKept (sc : Script) : ∀ s : State,
    scriptDisciplined (owesAfter false s.trace) sc = true → TraceKept s (runScript sc s) := by
  induction sc with
  | finish p =>
    intro s h
    have ho : owesAfter false s.trace = false := by simpa [scriptDisciplined] using h
    have := traceKept_end (s := s) (responseLegal_ok 0) ho
    cases p with
    | none => exact this
    | some q => exact ⟨this.writes, this.commits, this.responses, .inl ⟨rfl, by simpa [runScript, setPhaseIf] using ho⟩⟩
  | write reg data k ih =>
    intro s h
    have h' := h
    simp only [scriptDisciplined, Bool.and_eq_true] at h
    obtain ⟨⟨h1, h2⟩, h3⟩ := h
    simp only [runScript]
    split
    · exact ⟨id, id, id, .inr ⟨_, rfl, rfl, h', rfl⟩⟩
    · refine TraceKept.log h1 h2 (ih _ ?_)
      rw [owesAfter_log]
      simpa using h3
    · refine TraceKept.log h1 h2 (traceKept_end (responseLegal_err (by simp)) ?_)
      rw [owesAfter_log]
      simp
  | attempt reg data k l ihk ihl =>
    intro s h
    have h' := h
    simp only [scriptDisciplined, Bool.and_eq_true] at h
    obtain ⟨⟨⟨h1, h2⟩, h3⟩, h4⟩ := h
    simp only [runScript]
    split
    · exact ⟨id, id, id, .inr ⟨_, rfl, rfl, h', rfl⟩⟩
    · refine TraceKept.log h1 h2 (ihk _ ?_)
      rw [owesAfter_log]
      simpa using h3
    · refine TraceKept.log h1 h2 (ihl _ ?_)
      rw [owesAfter_log]
      simpa using h4

/-- What is left of a bus sequence ends with the phase changes of the whole. -/
theorem runScript_endsIn (p : Option Phase) (sc : Script) : ∀ s : State, scriptEndsIn p sc = true →
    (∀ left, (runScript sc s).pending = some left → scriptEndsIn p left = true) ∧
    ((runScript sc s).phase = s.phase ∨ ∃ q, p = some q ∧ (runScript sc s).phase = q) := by
  induction sc with
  | finish q =>
    intro s h
    have hq : q = p := by simpa [scriptEndsIn] using h
    subst hq
    cases q with
    | none => exact ⟨fun left hl => by simp [runScript] at hl, .inl rfl⟩
    | some q => exact ⟨fun left hl => by simp [runScript] at hl, .inr ⟨q, rfl, rfl⟩⟩
  | write reg data k ih =>
    intro s h
    simp only [runScript]
    split
    · exact ⟨fun left hl => by simp only [suspend_pending, Option.some.injEq] at hl; subst hl; exact h, .inl rfl⟩
    · exact ih _ h
    · exact ⟨fun left hl => by simp at hl, .inl rfl⟩
  | attempt reg data k l ihk ihl =>
    intro s h
    have h' := h
    simp only [scriptEndsIn, Bool.and_eq_true] at h
    simp only [runScript]
    split
    · exact ⟨fun left hl => by simp only [suspend_pending, Option.some.injEq] at hl; subst hl; exact h', .inl rfl⟩
    · exact ihk _ h.1
    · exact ihl _ h.2

/-- What was pending before a bus sequence runs does not matter. -/
theorem runScript_pending (sc : Script) (p : Option Script) : ∀ s : State,
    runScript sc { s with pending := p } = runScript sc s := by
  induction sc with
  | finish q => intro s; cases q <;> rfl
  | write reg data k ih =>
    intro s
    simp only [runScript]
    split
    · rfl
    · exact ih (logWrite _ _ _ _ s)
    · rfl
  | attempt reg data k l ihk ihl =>
    intro s
    simp only [runScript]
    split
    · rfl
    · exact ihk (logWrite _ _ _ _ s)
    · exact ihl (logWrite _ _ _ _ s)

/-- Running a bus sequence in two parts, as the answers come, ends as running it at once. -/
theorem runScript_split (sc : Script) (ys : List Answer) : ∀ (s : State) (left : Script),
    (runScript sc s).pending = some left →
      runScript left { runScript sc s with answers := ys } =
        runScript sc { s with answers := s.answers ++ ys } := by
  induction sc with
  | finish p => intro s left h; simp [runScript] at h
  | write reg data k ih =>
    intro s left h
    cases ha : s.answers with
    | nil =>
      rw [runScript_write_wait ha] at h ⊢
      simp only [suspend_pending, Option.some.injEq] at h
      subst h
      exact runScript_pending _ _ { s with answers := ys }
    | cons a as =>
      cases a with
      | ok =>
        rw [runScript_write_ok ha] at h ⊢
        rw [ih _ left h, runScript_write_ok (as := as ++ ys) rfl]
        rfl
      | err e =>
        rw [runScript_write_err ha] at h
        simp at h
  | attempt reg data k l ihk ihl =>
    intro s left h
    cases ha : s.answers with
    | nil =>
      rw [runScript_attempt_wait ha] at h ⊢
      simp only [suspend_pending, Option.some.injEq] at h
      subst h
      exact runScript_pending _ _ { s with answers := ys }
    | cons a as =>
      cases a with
      | ok =>
        rw [runScript_attempt_ok ha] at h ⊢
        rw [ihk _ left h, runScript_attempt_ok (as := as ++ ys) rfl]
        rfl
      | err e =>
        rw [runScript_attempt_err ha] at h ⊢
        rw [ihl _ left h, runScript_attempt_err (as := as ++ ys) rfl]
        rfl

end Sys2Proof.Machine
end

