-- ==== Sys2Proof/Tests/Slice0.lean ====
section
/-! SUPPORT. Small tests, with expected results from spec/ (vector numbers V are those of 95_test_vectors.md), and
a witness for the hypotheses of every statement of Certificates/Slice0/Obligations.lean. -/

namespace Sys2Proof.Tests

open Sys2Proof.Machine

/-- The start state `opened` of 95_test_vectors.md: after `OPEN`, with nothing else done. -/
def opened : State := { State.reset with phase := .ready }

/-- The start state after `CLOSE`. -/
def closed : State := { State.reset with phase := .disposed }

/-- `s` with these words on the command port and these answers from the transport. -/
def given (s : State) (ws : List Word) (as : List Answer) : State :=
  { s with cmdPort := ws, answers := as }

/-- One step from `s` with these words and answers ends in a state that passes `p`. -/
def stepsTo (s : State) (ws : List Word) (as : List Answer) (p : State → Bool) : Bool :=
  match step (given s ws as) with
  | .next t => p t
  | .fault _ => false
  | .refused _ => false

/-- The bus trace without its constant target. -/
def writes (t : State) : List (Byte × List Byte × Answer) := t.trace.map fun e => (e.reg, e.data, e.answer)

/-- The payload `ident`: entry b is b. -/
def ident : List Word := (List.range 256).map fun n => BitVec.ofNat 32 n

/-- The payload `rev`: entry b is 255 - b. -/
def rev : List Word := (List.range 256).map fun n => BitVec.ofNat 32 (255 - n)

/-! ## Well-formedness -/

theorem test_wf_accepts_longest : (Instr.gammaSet 0 (List.replicate 65535 0)).wf = true := by
  rw [Instr.wf, List.length_replicate]
  decide

theorem test_wf_refuses_long_gammaSet : (Instr.gammaSet 0 (List.replicate 65536 0)).wf = false := by
  rw [Instr.wf, List.length_replicate]
  decide

theorem test_wf_refuses_long_brightBulk :
    (Instr.brightBulk (List.replicate 65536 ⟨0, 0⟩)).wf = false := by
  rw [Instr.wf, List.length_replicate]
  decide

/-! ## Decoding: words written out from the formats of R74 and the opcodes of R81 -/

theorem test_decode_lifecycle :
    decode [0b00000001000000000000000000000000] = .packet .openCmd [] ∧
    decode [0b00000010000000000000000000000000] = .packet .closeCmd [] ∧
    decode [0b00010000000000000000000000000000] = .packet .outEnable [] ∧
    decode [0b00010001000000000000000000000000] = .packet .outDisable [] ∧
    decode [0b00010010000000000000000000000000] = .packet .chipReset [] := by decide

/- OP, then SEL[23:0]; or OP, 000, CH, 16 zeros. -/
theorem test_decode_mask_vector :
    decode [0b00100000100000000000000000000001] = .packet (.chOnV 0x800001) [] ∧
    decode [0b00100001000000010101010101010101] = .packet (.chOffV 0x015555) [] ∧
    decode [0b00100110000000100001100001000011] = .packet (.maskLoad 0x021843) [] := by decide

theorem test_decode_mask_index :
    decode [0b00100010000100010000000000000000] = .packet (.chOnI 17) [] ∧
    decode [0b00100011000000110000000000000000] = .packet (.chOffI 3) [] ∧
    decode [0b00100111000111110000000000000000] = .packet (.isSet 31) [] ∧
    decode [0b00100100000000000000000000000000] = .packet .allOn [] ∧
    decode [0b00100101000000000000000000000000] = .packet .allOff [] ∧
    decode [0b00101000000000000000000000000000] = .packet .maskRead [] := by decide

/- OP, 000, CH, LEN, then LEN words; OP, 000, CH, VAL. -/
theorem test_decode_gamma :
    decode [0b00110000000100100000000000000010, 0x12C, 5, 9] = .packet (.gammaSet 18 [300, 5]) [9] ∧
    decode [0b00110001000000110000000000000000] = .packet (.gammaReset 3) [] ∧
    decode [0b00110010000000000000000000000000] = .packet .gammaResetAll [] ∧
    decode [0b00110011000100100000000100000000] = .packet (.translate 18 256) [] := by decide

/- OP, 000, CH, VAL; OP, 00000000, LEN, then LEN words PCH[31:16], PVAL[15:0]. -/
theorem test_decode_brightness :
    decode [0b01000000000100010000000010000000] = .packet (.brightSet 17 128) [] ∧
    decode [0b01000001000000000000000000000010, 0b00000000000100010000000011001000, 0x0000012C] =
      .packet (.brightBulk [⟨17, 200⟩, ⟨0, 300⟩]) [] := by decide

/- V70 to V79a: unassigned opcodes and reserved bits. -/
theorem test_decode_illegal :
    [0x00000000, 0x03000000, 0x0F000000, 0x13000000, 0x29000000, 0x34000000, 0x42000000, 0xFF000000].all
      (fun h => decode [h, 7] == .illegal .unknownOpcode [7]) = true ∧
    [0x10000001, 0x28FFFFFF, 0x41010000, 0x30230100, 0x33200000, 0x22030001, 0x22230000].all
      (fun h => decode [h, 7] == .illegal .reservedBits [7]) = true := by decide

/- V41b: payload words that look like headers are payload. -/
theorem test_payload_is_opaque :
    decode [0x30030002, 0x01000000] = .wait ∧
    decode [0x30030002, 0x01000000, 0x01000000, 0x28000000] =
      .packet (.gammaSet 3 [0x01000000, 0x01000000]) [0x28000000] := by decide

theorem test_encode_words :
    encode .openCmd = [0x01000000] ∧ encode (.chOnV 0x3FFFF) = [0x2003FFFF] ∧
    encode (.chOffI 17) = [0x23110000] ∧ encode (.gammaSet 18 [300, 5]) = [0x30120002, 0x12C, 5] ∧
    encode (.brightBulk [⟨17, 200⟩]) = [0x41000001, 0x001100C8] := by decide

/- The match column of the opcode table, read as its 32 bits. -/
theorem test_table_words :
    decodeTableWord 32 0x01000000 = some .openCmd ∧ decodeTableWord 32 0x28000000 = some .maskRead ∧
    decodeTableWord 32 0x30000000 = some (.gammaSet 0 []) ∧
    decodeTableWord 32 0x30000002 = some (.gammaSet 0 [0, 0]) ∧
    decodeTableWord 32 0x41000001 = some (.brightBulk [⟨0, 0⟩]) ∧
    decodeTableWord 32 0x00000000 = none := by decide

theorem test_first_fetch_runs :
    step (State.reset.withFetchWord 32 0x28000000) = .next (raise .invalidState State.reset) ∧
    step (State.reset.withFetchWord 32 0x30000002) = .next (raise .invalidState State.reset) :=
  ⟨rfl, rfl⟩

/-! ## The default table: V30 to V33 -/

theorem test_default_table_sum :
    ((List.range 256).map fun b => (defEntry b).toNat).sum = 11436 := by decide +kernel

theorem test_default_table_values :
    [0, 1, 32, 33, 64, 128, 200, 254, 255].map defEntry = [0, 1, 1, 2, 3, 15, 75, 244, 249] := by
  decide +kernel

/-! ## Lifecycle and output -/

/- V1. -/
theorem test_open : stepsTo State.reset [0x01000000] [.ok, .ok, .ok] (fun t =>
    t.phase == .ready && t.responses == [0] &&
    writes t == [(0x13, [0, 0, 0], .ok), (0x16, [0xFF], .ok), (0x00, [1], .ok)]) = true := by decide +kernel

/- V3. -/
theorem test_open_commit_error : stepsTo State.reset [0x01000000] [.ok, .err 0x21, .ok] (fun t =>
    t.phase == .uninit && t.responses == [0x60000021] && t.answers == [.ok] &&
    writes t == [(0x13, [0, 0, 0], .ok), (0x16, [0xFF], .err 0x21)]) = true := by decide +kernel

/- V6. -/
theorem test_close_mask_error :
    stepsTo { opened with mask := 0x3FFFF } [0x02000000] [.err 0x11, .ok] (fun t =>
      t.phase == .disposed && t.mask == 0 && t.responses == [0] &&
      writes t == [(0x13, [0, 0, 0], .err 0x11), (0x00, [0], .ok)]) = true := by decide +kernel

/- V8. -/
theorem test_close_never_opened : stepsTo State.reset [0x02000000] [] (fun t =>
    t.phase == .disposed && t.responses == [0] && writes t == []) = true := by decide +kernel

/- V10a, V10b. -/
theorem test_output :
    stepsTo opened [0x10000000] [.ok] (fun t => t.responses == [0] && writes t == [(0x00, [1], .ok)]) = true ∧
    stepsTo opened [0x11000000] [.ok] (fun t => t.responses == [0] && writes t == [(0x00, [0], .ok)]) = true := by
  decide +kernel

/- V10e. -/
theorem test_chip_reset_error : stepsTo opened [0x12000000] [.err 0xEE] (fun t =>
    t.responses == [0x600000EE] && writes t == [(0x17, [0xFF], .err 0xEE)]) = true := by decide +kernel

/-! ## Enable mask -/

/- V14, V22a. -/
theorem test_chOnV :
    stepsTo opened [0x20020000] [.ok, .ok] (fun t => t.mask == 0x20000 && t.responses == [0] &&
      writes t == [(0x13, [0x00, 0x00, 0x20], .ok), (0x16, [0xFF], .ok)]) = true ∧
    stepsTo opened [0x20FFFFFF] [] (fun t =>
      t.mask == 0 && t.responses == [0x10000000] && writes t == []) = true := by decide +kernel

/- V19. -/
theorem test_chOffV : stepsTo { opened with mask := 0x3FFFF } [0x21015555] [.ok, .ok] (fun t =>
    t.mask == 0x2AAAA && writes t == [(0x13, [0x2A, 0x2A, 0x2A], .ok), (0x16, [0xFF], .ok)]) = true := by
  decide +kernel

/- V20a, V26. -/
theorem test_chOnI :
    stepsTo opened [0x22060000] [.ok, .ok] (fun t => t.mask == 0x00040 &&
      writes t == [(0x13, [0x00, 0x01, 0x00], .ok), (0x16, [0xFF], .ok)]) = true ∧
    stepsTo opened [0x22030000] [.err 0x33] (fun t => t.mask == 0x00008 && t.responses == [0x60000033] &&
      writes t == [(0x13, [0x08, 0x00, 0x00], .err 0x33)]) = true := by decide +kernel

/- V20b, V21b. -/
theorem test_chOffI :
    stepsTo { opened with mask := 0x3FFFF } [0x23060000] [.ok, .ok] (fun t => t.mask == 0x3FFBF &&
      writes t == [(0x13, [0x3F, 0x3E, 0x3F], .ok), (0x16, [0xFF], .ok)]) = true ∧
    stepsTo { opened with mask := 0x3FFFF } [0x23120000] [] (fun t =>
      t.mask == 0x3FFFF && t.responses == [0x10000000]) = true := by decide +kernel

/- V23, V23a. -/
theorem test_allOn_allOff :
    stepsTo opened [0x24000000] [.ok, .ok] (fun t => t.mask == 0x3FFFF &&
      writes t == [(0x13, [0x3F, 0x3F, 0x3F], .ok), (0x16, [0xFF], .ok)]) = true ∧
    stepsTo { opened with mask := 0x3FFFF } [0x25000000] [.ok, .ok] (fun t => t.mask == 0 &&
      writes t == [(0x13, [0, 0, 0], .ok), (0x16, [0xFF], .ok)]) = true := by decide +kernel

/- V24a, V22b. -/
theorem test_maskLoad :
    stepsTo opened [0x26021843] [.ok, .ok] (fun t => t.mask == 0x21843 &&
      writes t == [(0x13, [0x03, 0x21, 0x21], .ok), (0x16, [0xFF], .ok)]) = true ∧
    stepsTo { opened with mask := 0x3FFFF } [0x26800001] [] (fun t =>
      t.mask == 0x3FFFF && t.responses == [0x10000000]) = true := by decide +kernel

/- V25. -/
theorem test_isSet :
    stepsTo { opened with mask := 0x2AAAA } [0x27010000] [] (fun t => t.responses == [1]) = true ∧
    stepsTo { opened with mask := 0x2AAAA } [0x27020000] [] (fun t => t.responses == [0]) = true := by
  decide +kernel

/- V24a. -/
theorem test_maskRead : stepsTo { opened with mask := 0x21843 } [0x28000000] [] (fun t =>
    t.responses == [0x00212103]) = true := by decide +kernel

/-! ## Gamma tables -/

/- V40. -/
theorem test_gammaSet : stepsTo opened (0x30030100 :: rev) [] (fun t => t.responses == [0] &&
    readLut t 3 0 == 255 && readLut t 3 255 == 0 && readLut t 4 255 == 249 && t.trace == []) = true := by
  decide +kernel

/- V39: one bad entry, and no entry is written. -/
theorem test_gammaSet_bad_entry : stepsTo opened (0x30030100 :: ident.set 7 256) [] (fun t =>
    t.responses == [0x40000000] && t.lut == opened.lut) = true := by decide +kernel

/- V42. -/
theorem test_gammaReset :
    stepsTo { opened with lut := Vector.replicate 18 [(0, 255), (255, 0)] } [0x31030000] [] (fun t =>
      t.responses == [0] && readLut t 3 255 == 249 && readLut t 3 0 == 0 && readLut t 4 255 == 0) = true := by
  decide +kernel

/- V43. -/
theorem test_gammaResetAll :
    stepsTo { opened with lut := Vector.replicate 18 [(0, 255), (255, 0)] } [0x32000000] [] (fun t =>
      t.responses == [0] && t.lut == State.reset.lut) = true := by decide +kernel

/- V34, V35. -/
theorem test_translate :
    stepsTo opened [0x33000080] [] (fun t => t.responses == [0x0000000F]) = true ∧
    stepsTo opened [0x331100FF] [] (fun t => t.responses == [0x000000F9]) = true ∧
    stepsTo opened [0x33000100] [] (fun t => t.responses == [0x40000000]) = true ∧
    stepsTo opened [0x33120100] [] (fun t => t.responses == [0x10000000]) = true := by decide +kernel

/-! ## Brightness -/

/- V51. -/
theorem test_brightSet : stepsTo opened [0x40110080] [.ok, .ok] (fun t => t.br[17] == 128 &&
    writes t == [(0x01, List.replicate 17 0 ++ [0x0F], .ok), (0x16, [0xFF], .ok)]) = true := by
  decide +kernel

/- V54a. -/
theorem test_brightSet_commit_error : stepsTo opened [0x400500C8] [.ok, .err 0x45] (fun t =>
    t.br[5] == 200 && t.responses == [0x60000045] && (writes t).length == 2) = true := by decide +kernel

/- V59: the last pair of a channel wins. -/
theorem test_brightBulk :
    stepsTo opened [0x41000003, 0x000000FF, 0x001100C8, 0x00000040] [.ok, .ok] (fun t =>
      t.br[0] == 64 && t.br[17] == 200 &&
      writes t == [(0x01, [0x03] ++ List.replicate 16 0 ++ [0x4B], .ok), (0x16, [0xFF], .ok)]) = true := by
  decide +kernel

/- V57, V57a. -/
theorem test_brightBulk_errors :
    stepsTo opened [0x41000002, 0x0000012C, 0x00120001] [] (fun t => t.responses == [0x10000000]) = true ∧
    stepsTo opened [0x41000002, 0x000100FF, 0x00020100] [] (fun t =>
      t.responses == [0x40000000] && t.br[1] == 0) = true := by decide +kernel

/-! ## Steps -/

/- V80: an illegal header outranks the phase. -/
theorem test_illegal_header : stepsTo State.reset [0x42000000] [] (fun t =>
    t.responses == [0x70000000] && t.cmdPort == []) = true := by decide +kernel

/- R209: a write with no answer waits, with the mask already updated; the answer given later ends the
command. -/
theorem test_unanswered_write_waits : stepsTo opened [0x22030000, 0x28000000] [] (fun t =>
    t.mask == 0x00008 && t.pending.isSome && t.responses == [] && t.trace == [] &&
    stepsTo t t.cmdPort [.ok, .ok] (fun u => u.responses == [0] && u.cmdPort == [0x28000000])) = true := by
  decide +kernel

/- R75, R222: an incomplete packet is kept; reset then is refused. -/
theorem test_incomplete_packet : stepsTo opened [0x41000002, 0x00110001] [] (fun t =>
    t.rx == [0x41000002, 0x00110001] && t.cmdPort == [] && t.responses == [] &&
    (match step { t with resetLine := true } with
      | .refused .resetDuringCommand => true
      | .refused (.notModelled _) => false
      | .next _ => false
      | .fault _ => false)) = true := by decide +kernel

/- R220: a reset pulse with no step between gives the reset state; R222: during a command it is refused. -/
theorem test_reset_pulse :
    (match play [.line true, .line false] { World.start with engine := closed } with
      | .next w => w.engine == State.reset
      | .fault _ => false
      | .refused _ => false) = true ∧
    (match play [.line true, .line false] { World.start with engine := { opened with rx := [0x41000001] } } with
      | .refused .resetDuringCommand => true
      | .refused (.notModelled _) => false
      | .next _ => false
      | .fault _ => false) = true := by decide +kernel

/- R238: what the duties admit and what they rule out. -/
theorem test_host_duties :
    sendsOpenFirst (.send [0x01000000]) World.start = true ∧
    sendsOpenFirst (.send [0x24000000]) World.start = false ∧
    sendsWholePacket (.send [0x41000001, 0]) World.start = true ∧
    sendsWholePacket (.send [0x41000001, 0, 0]) World.start = false ∧
    takesResponseFirst (.send [0]) ⟨{ opened with responses := [0] }, 1⟩ = true ∧
    takesResponseFirst (.send [0]) ⟨{ opened with responses := [0] }, 0⟩ = false ∧
    resetsBetweenPackets (.line true) ⟨opened, 0⟩ = true ∧
    resetsBetweenPackets (.line true) ⟨{ opened with cmdPort := [0] }, 0⟩ = false := by decide

theorem test_transport_duties :
    answersOnce (.answer .ok) World.start = false ∧
    answersOnce (.answer (.err 7)) ⟨{ opened with pending := some (singleScript 0 [1]) }, 0⟩ = true ∧
    answersOnce (.answer .ok) ⟨{ opened with pending := some (singleScript 0 [1]), answers := [.ok] }, 0⟩ =
      false := by decide

/- R239, U7: over after a response, not over with a write unanswered or payload missing. -/
theorem test_runOver :
    runOver opened = true ∧ runOver { opened with rx := [0x41000001] } = false ∧
    runOver { opened with pending := some (singleScript 0 [1]) } = false ∧
    awaitsTransport { opened with pending := some (singleScript 0 [1]) } = true ∧
    runOver { opened with cmdPort := [0] } = false := by decide

/- R90, R92. -/
theorem test_pseudo :
    chOnOrd [1, 18] = some (.chOnV 0x020001) ∧ chOffOrd [] = some (.chOffV 0) ∧ chOnOrd [0] = none ∧
    encode refresh = [0x41000000] := by decide

/- R89. -/
theorem test_asm : asmText (.translate 0 255) = "TRANSLATE 0, 255" ∧ asmText .openCmd = "OPEN" := by
  decide +kernel

/-! ## Witnesses: the hypotheses of the statements are met -/

/-- A state with a command waiting for the transport. -/
def waiting : State :=
  { opened with mask := 0x8, pending := some (committedScript 0x13 [0x08, 0x00, 0x00]) }

theorem witness_DecodingAnEncodedInstructionGivesItBack :
    (Instr.gammaSet 18 [300, 5]).wf = true ∧ (Instr.brightBulk [⟨0xFFFF, 0xFFFF⟩]).wf = true := by decide

theorem witness_EncodingADecodedPacketGivesItsWords :
    decode [0x30120002, 0x12C, 5, 0x28000000] = .packet (.gammaSet 18 [300, 5]) [0x28000000] := by decide

/- Either side of the statement: a selected word, and one no row selects. -/
theorem witness_HeaderIsIllegalExactlyWhenNoRowSelectsIt :
    0x221F0000#32 &&& 0xFFE0FFFF = 0x22000000 ∧
    decode [0x22200000] = .illegal .reservedBits [] := by decide

theorem witness_PacketLengthIsToldByTheHeaderAlone :
    (0x301F0002#32 &&& 0xFFE00000 = 0x30000000 ∧ ([1] : List Word).length < (0x301F0002#32 |>.extractLsb' 0 16).toNat) ∧
    (0x41000001#32 &&& 0xFFFF0000 = 0x41000000 ∧ (0x41000001#32 |>.extractLsb' 0 16).toNat ≤ ([1] : List Word).length) ∧
    ¬ (0x41010000#32 &&& 0xFFE00000 = 0x30000000 ∨ 0x41010000#32 &&& 0xFFFF0000 = 0x41000000) := by decide

theorem witness_StepRunsTheDecodedPacket :
    ∃ s : State, s.resetLine = false ∧ s.pending = none ∧
      decode (s.rx ++ s.cmdPort) = .packet (.gammaSet 3 [1, 2]) [7] :=
  ⟨{ opened with rx := [0x30030002, 1], cmdPort := [2, 7] }, by decide⟩

theorem witness_StepAnswersAnIllegalHeader :
    ∃ s : State, s.resetLine = false ∧ s.pending = none ∧
      decode (s.rx ++ s.cmdPort) = .illegal .unknownOpcode [7] :=
  ⟨{ closed with cmdPort := [0, 7] }, by decide⟩

theorem witness_StepWaitsForWordsAndAnswers :
    (∃ s : State, s.resetLine = false ∧ s.pending = none ∧ s.rx ≠ [] ∧ decode (s.rx ++ s.cmdPort) = .wait) ∧
    (opened.resetLine = false ∧ opened.pending = none ∧ opened.rx = [] ∧ opened.cmdPort = []) ∧
    (waiting.resetLine = false ∧ waiting.pending = some (committedScript 0x13 [0x08, 0x00, 0x00]) ∧
      scriptWrites (committedScript 0x13 [0x08, 0x00, 0x00]) = true ∧ waiting.answers = []) :=
  ⟨⟨{ opened with rx := [0x30030002], cmdPort := [2] }, by decide⟩, by decide, by decide⟩

theorem witness_WaitingForAnswersChangesNothing :
    ∃ t, (given opened [] [.ok]).resetLine = false ∧
      exec (.chOnI 3) (given opened [] [.ok]) = .next t ∧ t.pending.isSome = true :=
  ⟨_, rfl, rfl, rfl⟩

theorem witness_ResetInputRestoresTheResetState :
    ∃ s u v : State, (s.resetLine = true ∧ s.rx = [] ∧ s.pending = none ∧ s.phase = .ready) ∧
      (u.resetLine = true ∧ u.rx ≠ []) ∧ (v.resetLine = true ∧ v.pending ≠ none) ∧
      (closed.resetLine = false ∧ closed.rx = [] ∧ closed.pending = none) ∧
      (waiting.resetLine = false ∧ waiting.pending ≠ none) :=
  ⟨{ opened with resetLine := true }, { opened with resetLine := true, rx := [0x41000001] },
    { waiting with resetLine := true }, by decide⟩

theorem witness_DefaultTableIsTheFloorOfThePower :
    1 ≤ 255 ∧ 255 ≤ 255 ∧ defEntry 255 = 249 ∧ defEntry 1 = 1 := by decide +kernel

theorem witness_PackIsABijectionOntoSixBitTriples :
    (0x3F#8).toNat ≤ 0x3F ∧ pack 0x3FFFF = [0x3F, 0x3F, 0x3F] ∧ pack 0x20001 = [0x01, 0x00, 0x20] := by decide

/-- Every pattern of answers the statements on bus writes speak of. -/
theorem witness_answers (s : State) (e : Byte) (as : List Answer) :
    (given s [] (.ok :: as)).answers = .ok :: as ∧ (given s [] (.err e :: as)).answers = .err e :: as ∧
    (given s [] (.ok :: .ok :: as)).answers = .ok :: .ok :: as ∧
    (given s [] (.ok :: .err e :: as)).answers = .ok :: .err e :: as ∧
    (given s [] (.ok :: .ok :: .ok :: as)).answers = .ok :: .ok :: .ok :: as ∧
    (given s [] (.ok :: .ok :: .err e :: as)).answers = .ok :: .ok :: .err e :: as ∧
    (given s [] as).phase = s.phase := ⟨rfl, rfl, rfl, rfl, rfl, rfl, rfl⟩

/- For `OpenTurnsAllOffThenEnablesOutput`, each clause. -/
theorem witness_OpenTurnsAllOffThenEnablesOutput :
    State.reset.phase = .uninit ∧ opened.phase ≠ .uninit ∧ closed.phase ≠ .uninit ∧
    (given State.reset [] [.ok, .ok, .err 255]).answers = .ok :: .ok :: .err 255 :: [] := by decide

/- For the statements on `CLOSE`, `OUT_ENABLE`, `OUT_DISABLE`, `CHIP_RESET`, `ALL_ON`, `ALL_OFF`, `MASK_READ` and
`GAMMA_RESET_ALL`, each clause. -/
theorem witness_phases :
    (given opened [] [.ok, .err 0, .err 255]).phase = .ready ∧
    (given opened [] [.err 0, .ok]).phase = .ready ∧
    State.reset.phase ≠ .ready ∧ closed.phase ≠ .ready ∧ pack opened.mask = [0, 0, 0] := by decide

/- For `CH_ON_V`, `CH_OFF_V`, `MASK_LOAD`: the widest valid vector, the two ends of the invalid bits. -/
theorem witness_vectors :
    (0x03FFFF#24).extractLsb' 18 6 = 0 ∧ (0x040000#24).extractLsb' 18 6 ≠ 0 ∧
    (0x800000#24).extractLsb' 18 6 ≠ 0 ∧ opened.phase = .ready ∧ closed.phase ≠ .ready := by decide

/- For `CH_ON_I`, `CH_OFF_I`, `IS_SET`, `GAMMA_RESET`: channels 17 and 18. -/
theorem witness_channels :
    (17#5).toNat ≤ 17 ∧ (17 : Chan).val = (17#5).toNat ∧ 17 < (18#5).toNat ∧ 17 < (31#5).toNat ∧
    opened.phase = .ready ∧ closed.phase ≠ .ready := by decide

theorem rev_le : ∀ e ∈ rev, e.toNat ≤ 255 := by
  intro e he
  simp only [rev, List.mem_map] at he
  obtain ⟨n, _, rfl⟩ := he
  simp only [BitVec.toNat_ofNat]
  omega

/- Each clause: 256 entries up to 255; channel 18; 255 entries and 257 entries; an entry 256. -/
theorem witness_GammaSetReplacesOneTable :
    rev.length < 65536 ∧ (rev.length = 256 ∧ (∀ e ∈ rev, e.toNat ≤ 255) ∧ (17 : Chan).val = (17#5).toNat ∧ opened.phase = .ready) ∧
    17 < (18#5).toNat ∧
    ((rev.drop 1).length ≠ 256 ∧ (0 :: rev).length ≠ 256 ∧ (17#5).toNat ≤ 17) ∧
    ((256 :: rev.drop 1).length = 256 ∧ ∃ e ∈ 256 :: rev.drop 1, 255 < e.toNat) ∧
    closed.phase ≠ .ready := by
  refine ⟨by simp [rev], ⟨by simp [rev], rev_le, rfl, rfl⟩, by decide, ⟨by simp [rev], by simp [rev], by decide⟩, ⟨by simp [rev], ?_⟩,
    by decide⟩
  exact ⟨256, by simp, by decide⟩

/- For `TRANSLATE` and `BRIGHT_SET`: each clause, at values 255 and 256. -/
theorem witness_values :
    ((255#16).toNat ≤ 255 ∧ (17 : Chan).val = (17#5).toNat ∧ opened.phase = .ready) ∧
    17 < (18#5).toNat ∧ ((17#5).toNat ≤ 17 ∧ 255 < (256#16).toNat) ∧ closed.phase ≠ .ready := by decide

/-- Whether every channel of the pairs is valid. -/
def goodChannels (ps : List BrightPair) : Bool := ps.all fun p => decide (p.channel.toNat ≤ 17)

theorem witness_BrightBulkAppliesThePairsInOrderAndSendsAll :
    ([⟨17, 255⟩, ⟨17, 0⟩] : List BrightPair).length < 65536 ∧
    ((∀ p ∈ [(⟨17, 255⟩ : BrightPair), ⟨17, 0⟩], p.channel.toNat ≤ 17) ∧
      (∀ p ∈ [(⟨17, 255⟩ : BrightPair), ⟨17, 0⟩], p.value.toNat ≤ 255) ∧ opened.phase = .ready) ∧
    (∃ p ∈ [(⟨0, 300⟩ : BrightPair), ⟨18, 1⟩], 17 < p.channel.toNat) ∧
    ((∀ p ∈ [(⟨17, 256⟩ : BrightPair)], p.channel.toNat ≤ 17) ∧
      (∃ p ∈ [(⟨17, 256⟩ : BrightPair)], 255 < p.value.toNat)) ∧ closed.phase ≠ .ready := by decide

theorem witness_CommandsOutsideReadyAnswerInvalidState :
    Instr.maskRead ≠ .openCmd ∧ Instr.maskRead ≠ .closeCmd ∧ State.reset.phase ≠ .ready ∧
    closed.phase ≠ .ready := by decide

theorem witness_ValidationErrorsChangeNothing :
    ∃ t, exec (.chOnI 18) opened = .next t ∧ t.responses = opened.responses ++ [0x10000000] ∧
      responseStatus 0x10000000 ∈ [1, 3, 4, 5] := ⟨_, rfl, by decide⟩

theorem witness_TransportErrorStopsAtTheFailingWrite :
    ∃ t, exec .allOn (given opened [] [.ok, .err 9]) = .next t ∧
      t.responses = opened.responses ++ [0x60000009] ∧ responseStatus 0x60000009 = 6 :=
  ⟨_, rfl, by decide⟩

theorem witness_CloseNeverReportsAnError :
    ∃ t, exec .closeCmd (given opened [] [.err 1, .err 2]) = .next t ∧
      t.responses = opened.responses ++ [0] ∧ t.pending = none := ⟨_, rfl, by decide⟩

/- For `EveryCommandAnswersOnceOrWaits`: the premises of the end of a run. -/
theorem witness_EveryCommandAnswersOnceOrWaits :
    opened.resetLine = false ∧ opened.rx = [] ∧ opened.cmdPort = [] := by decide

/-- A run that keeps every duty: the host sends `OPEN` and the engine issues its first write. -/
theorem witness_dutifulRun : ∃ w, DutifulRun [.send [0x01000000], .step, .answer .ok] w :=
  ⟨_, rfl, by decide, by decide, by decide, by decide, by decide⟩

theorem witness_LifecycleCommandsFrame :
    ∃ t u v w x, exec .openCmd (given State.reset [] [.ok, .ok, .ok]) = .next t ∧
      exec .closeCmd (given opened [] [.ok, .ok, .ok]) = .next u ∧
      exec .outEnable (given opened [] [.ok]) = .next v ∧
      exec .outDisable (given opened [] [.ok]) = .next w ∧
      exec .chipReset (given opened [] [.ok]) = .next x ∧ t.phase = .ready ∧ u.phase = .disposed ∧
      Instr.outEnable ∈ [Instr.outEnable, .outDisable, .chipReset] :=
  ⟨_, _, _, _, _, rfl, rfl, rfl, rfl, rfl, rfl, rfl, by decide⟩

theorem witness_MaskCommandsFrame :
    ∃ t, writesMask (.chOnI 17) = true ∧ exec (.chOnI 17) (given opened [] [.ok, .ok]) = .next t ∧
      t.mask = 0x20000 := ⟨_, rfl, rfl, by decide⟩

theorem witness_ReadingCommandsChangeNothing :
    ∃ t u v, exec (.isSet 17) opened = .next t ∧ exec .maskRead opened = .next u ∧
      exec (.translate 17 255) opened = .next v ∧ v.responses = [249] :=
  ⟨_, _, _, rfl, rfl, rfl, by decide +kernel⟩

theorem witness_GammaCommandsFrame :
    ∃ t, writesTables (.gammaReset 17) = true ∧ exec (.gammaReset 17) opened = .next t ∧
      (16 : Chan).val ≠ (17#5).toNat ∧ t.responses = [0] := ⟨_, rfl, rfl, by decide, rfl⟩

theorem witness_BrightnessCommandsFrame :
    ∃ t, writesBrightness (.brightSet 17 255) = true ∧
      exec (.brightSet 17 255) (given opened [] [.ok, .ok]) = .next t ∧ (16 : Chan).val ≠ (17#5).toNat ∧
      (∀ p ∈ [(⟨17, 255⟩ : BrightPair)], p.channel.toNat ≠ (16 : Chan).val) :=
  ⟨_, rfl, rfl, by decide, by decide⟩

theorem witness_EachRegisterHasItsOwnWriters :
    ∃ t, exec (.chOnI 17) (given opened [] [.ok, .ok]) = .next t ∧ writesBrightness (.chOnI 17) = false ∧
      writesTables (.chOnI 17) = false ∧ writesMask (.translate 0 0) = false ∧
      Instr.chOnI 17 ≠ .openCmd ∧ Instr.chOnI 17 ≠ .closeCmd :=
  ⟨_, rfl, rfl, rfl, rfl, by decide⟩

theorem opened_invariant : Invariant opened :=
  ⟨by simp [opened, State.reset, wf_nil], rfl, by simp [opened, State.reset], by simp [opened, State.reset],
    rfl, rfl, nofun⟩

/-- A state that waits for the transport satisfies the invariant too. -/
theorem waiting_invariant : Invariant waiting :=
  ⟨by simp [waiting, opened, State.reset, wf_nil], rfl, by simp [waiting, opened, State.reset],
    by simp [waiting, opened, State.reset], rfl, by decide, nofun⟩

theorem witness_EveryStepKeepsTheInvariant :
    (∃ t, Invariant opened ∧ step opened = .next t) ∧ ∃ t, Invariant waiting ∧ step waiting = .next t :=
  ⟨⟨_, opened_invariant, rfl⟩, _, waiting_invariant, rfl⟩

theorem witness_EveryReachableStateSatisfiesTheInvariant :
    ∃ s, driveReset true (transportAnswers .ok (hostSends [0x01000000] State.reset)) = .next s ∧
      s.resetLine = true ∧ Reachable s :=
  ⟨_, rfl, rfl, .line true (.answer _ (.words _ .reset)) rfl⟩

theorem witness_PhaseNeverGoesBackWithoutReset :
    ∃ t, Invariant opened ∧ opened.resetLine = false ∧ step opened = .next t :=
  ⟨_, opened_invariant, rfl, rfl⟩

theorem witness_StepOnlyAppendsAndConsumesInOrder :
    ∃ t, (given opened [0x24000000, 7] [.ok, .ok, .ok]).resetLine = false ∧
      step (given opened [0x24000000, 7] [.ok, .ok, .ok]) = .next t ∧ t.cmdPort = [7] ∧ t.answers = [.ok] :=
  ⟨_, rfl, rfl, by decide +kernel⟩

theorem witness_BrightnessCommandsIgnoreTheMask :
    writesBrightness (.brightSet 17 255) = true ∧ writesBrightness (.brightBulk []) = true := ⟨rfl, rfl⟩

theorem witness_MaskCommandsIgnoreBrightnessAndTables :
    writesMask (.chOffV 0x3FFFF) = true ∧ writesMask .allOff = true := ⟨rfl, rfl⟩

theorem witness_EnableThenDisableClearsTheBit :
    (given opened [] [.ok, .ok, .ok, .ok]).phase = .ready ∧ (17#5).toNat ≤ 17 ∧
    (given opened [] [.ok, .ok, .ok, .ok]).answers = .ok :: .ok :: .ok :: .ok :: [] := by decide

theorem witness_TranslateAnswersTheEntryThatWasSet :
    opened.phase = .ready ∧ (17#5).toNat ≤ 17 ∧ rev.length = 256 ∧ (∀ e ∈ rev, e.toNat ≤ 255) ∧
    (255#16).toNat ≤ 255 := ⟨rfl, by decide, by simp [rev], rev_le, by decide⟩

theorem witness_GammaResetAllEqualsEighteenResets :
    opened.phase = .ready ∧ ∀ c : Chan, c ∈ (List.finRange 18).reverse := by decide

theorem witness_MaskCommandsAgreeWithTheirVectorForms : (17#5).toNat ≤ 17 := by decide

theorem witness_DefaultTablesSendAtMost249 :
    writesBrightness (.brightSet 0 255) = true ∧
    (∀ (c : Chan) (b : Byte), readLut (given opened [] [.ok, .ok]) c b = defEntry b.toNat) ∧
    ∃ t e f, exec (.brightSet 0 255) (given opened [] [.ok, .ok]) = .next t ∧
      t.trace = (given opened [] [.ok, .ok]).trace ++ [e, f] ∧ e.reg = 0x01 ∧ (249 : Byte) ∈ e.data := by
  refine ⟨rfl, fun c b => by simp [readLut, given, opened, State.reset, Memory.read], _, _, _, rfl, rfl, rfl, ?_⟩
  decide +kernel

theorem witness_PseudoInstructionsExpandAsTabled :
    opened.phase = .ready ∧ (17 : Chan).val = (17#5).toNat ∧ (∀ n ∈ [1, 18, 18], 1 ≤ n ∧ n ≤ 18) := by decide

theorem witness_EveryLinkOrderCarriesTheWord :
    ([2, 0, 3, 1] : LinkOrder).Nodup ∧ ([2, 0, 3, 1] : LinkOrder).length = 4 ∧
    wordToLink [2, 0, 3, 1] 0x11223344 = [0x22, 0x44, 0x11, 0x33] := by decide

end Sys2Proof.Tests
end

section
/-! The statements of 00_scope.md on the phase check (R14), on the mask packer (R11) and on waiting for the
transport (R12). -/

namespace Sys2Proof.Machine

/-! ## The phase check -/

theorem errWord_invalidState : errWord .invalidState = 0x50000000 := by decide

/-- R14 for one command: only the meanings of `OPEN` and `CLOSE` do not begin with `require_ready()`. -/
theorem exec_notReady {i : Instr} {s : State} (hopen : i ≠ .openCmd) (hclose : i ≠ .closeCmd)
    (h : s.phase ≠ .ready) : exec i s = .next (raise .invalidState s) := by
  cases i with
  | openCmd => exact absurd rfl hopen
  | closeCmd => exact absurd rfl hclose
  | _ => exact requireReady_notReady h _

/-- Settles O34: each of these commands begins with the phase check, which raises `InvalidState`. -/
theorem commandsOutsideReadyAnswerInvalidState : Obligations.CommandsOutsideReadyAnswerInvalidState := by
  intro i s hopen hclose h
  rw [exec_notReady hopen hclose h, raise, errWord_invalidState]
  rfl

/-! ## The mask packer -/

/-- R11, R54a: bit `j` of group `g` is bit `6 g + j` of the mask, and only the low six bits are used. -/
theorem packGroup_getLsbD (m : BitVec 18) (g j : Nat) :
    (packGroup m g).getLsbD j = (decide (j < 6) && m.getLsbD (6 * g + j)) := by
  have h3F : (0x3F : BitVec 18).getLsbD j = decide (j < 6) := Nat.testBit_two_pow_sub_one 6 j
  rw [packGroup, BitVec.getLsbD_setWidth, BitVec.getLsbD_and, BitVec.getLsbD_ushiftRight, h3F]
  by_cases hj : j < 6
  · simp [hj, show j < 8 by omega]
  · simp [hj]

theorem getD_pack (m : BitVec 18) {g : Nat} (hg : g < 3) : (pack m).getD g 0 = packGroup m g := by
  interval_cases g <;> rfl

/-- A byte up to `0x3F` has bits 6 and 7 clear. -/
theorem getLsbD_of_le_3F {b : Byte} (hb : b.toNat ≤ 0x3F) {j : Nat} (hj : 6 ≤ j) : b.getLsbD j = false :=
  Nat.testBit_lt_two_pow
    (calc b.toNat < 2 ^ 6 := by omega
      _ ≤ 2 ^ j := Nat.pow_le_pow_right (by omega) hj)

/-- The mask put together from three packed bytes (R129). -/
def unpack (b0 b1 b2 : Byte) : BitVec 18 :=
  b0.setWidth 18 ||| (b1.setWidth 18 <<< 6) ||| (b2.setWidth 18 <<< 12)

/-- The three bytes do not overlap in the mask, so each bit comes from one of them. -/
theorem unpack_getLsbD {b0 b1 b2 : Byte} (h0 : b0.toNat ≤ 0x3F) (h1 : b1.toNat ≤ 0x3F) {g j : Nat}
    (hg : g < 3) (hj : j < 6) :
    (unpack b0 b1 b2).getLsbD (6 * g + j) = ([b0, b1, b2].getD g 0).getLsbD j := by
  interval_cases g
  · simp [unpack, show j < 18 by omega, show j < 12 by omega, hj]
  · simp [unpack, show 6 + j < 18 by omega, show 6 + j < 12 by omega,
      getLsbD_of_le_3F h0 (show 6 ≤ 6 + j by omega)]
  · simp [unpack, show 12 + j < 18 by omega, getLsbD_of_le_3F h0 (show 6 ≤ 12 + j by omega),
      getLsbD_of_le_3F h1 (show 6 ≤ 12 + j - 6 by omega)]

theorem packGroup_unpack {b0 b1 b2 : Byte} (h0 : b0.toNat ≤ 0x3F) (h1 : b1.toNat ≤ 0x3F)
    (h2 : b2.toNat ≤ 0x3F) {g : Nat} (hg : g < 3) :
    packGroup (unpack b0 b1 b2) g = [b0, b1, b2].getD g 0 := by
  have hle : ([b0, b1, b2].getD g 0).toNat ≤ 0x3F := by interval_cases g <;> assumption
  refine BitVec.eq_of_getLsbD_eq fun j _ => ?_
  rw [packGroup_getLsbD]
  by_cases hj : j < 6
  · rw [unpack_getLsbD h0 h1 hg hj]
    simp [hj]
  · rw [getLsbD_of_le_3F hle (by omega)]
    simp [hj]

theorem pack_unpack {b0 b1 b2 : Byte} (h0 : b0.toNat ≤ 0x3F) (h1 : b1.toNat ≤ 0x3F)
    (h2 : b2.toNat ≤ 0x3F) : pack (unpack b0 b1 b2) = [b0, b1, b2] := by
  simp [pack, packGroup_unpack h0 h1 h2]

/-- Mask bit `k` is in byte `k div 6` of the packed mask, at bit `k mod 6` (R129). -/
theorem getLsbD_getD_pack (m : BitVec 18) {k : Nat} (hk : k < 18) :
    ((pack m).getD (k / 6) 0).getLsbD (k % 6) = m.getLsbD k := by
  have hmod : k % 6 < 6 := Nat.mod_lt _ (by omega)
  rw [getD_pack m (by omega), packGroup_getLsbD, Nat.div_add_mod]
  simp [hmod]

theorem unpack_packGroup (m : BitVec 18) :
    unpack (packGroup m 0) (packGroup m 1) (packGroup m 2) = m := by
  refine BitVec.eq_of_getLsbD_eq fun k hk => ?_
  rw [← getLsbD_getD_pack m hk]
  conv_lhs => rw [← Nat.div_add_mod k 6]
  exact unpack_getLsbD (packGroup_le m 0) (packGroup_le m 1) (by omega) (Nat.mod_lt _ (by omega))

/-- Settles O13: `unpack` is the inverse of `pack` in both directions, and `getLsbD_getD_pack` has the bits. -/
theorem packIsABijectionOntoSixBitTriples : Obligations.PackIsABijectionOntoSixBitTriples := by
  refine ⟨fun m => ⟨fun k => getLsbD_getD_pack m k.isLt, fun b hb => ?_, ?_⟩,
    fun b0 b1 b2 h0 h1 h2 => ⟨unpack b0 b1 b2, pack_unpack h0 h1 h2⟩⟩
  · have hle : b.toNat ≤ 0x3F := by
      simp only [pack, List.mem_cons, List.not_mem_nil, or_false] at hb
      obtain rfl | rfl | rfl := hb <;> exact packGroup_le m _
    exact ⟨getLsbD_of_le_3F hle (by omega), getLsbD_of_le_3F hle (by omega)⟩
  · exact ⟨_, _, _, rfl, (unpack_packGroup m).symm⟩

/-! ## Waiting for the transport -/

/-- `s` when the answers `ys` have come besides those it has. -/
def moreAnswers (ys : List Answer) (s : State) : State := { s with answers := s.answers ++ ys }

/-- Where result `r` is a command that waits, going on with the answers `ys` alone makes `r'` (R12, R209). -/
def GoesOnTo (ys : List Answer) (r r' : Result) : Prop :=
  ∀ t left, r = .next t → t.pending = some left → resume left { t with answers := ys } = r'

theorem goesOnTo_answerWith (ys : List Answer) (d : BitVec 24) (s : State) (r' : Result) :
    GoesOnTo ys (answerWith d s) r' := by
  rintro t left ⟨⟩ hp
  simp [respond] at hp

theorem goesOnTo_fail (ys : List Answer) (e : Err) (s : State) (r' : Result) :
    GoesOnTo ys (fail e s) r' := by
  rintro t left ⟨⟩ hp
  simp [raise] at hp

theorem goesOnTo_transmit (ys : List Answer) (sc : Script) (s : State) :
    GoesOnTo ys (transmit sc s) (transmit sc (moreAnswers ys s)) := by
  rintro t left ⟨⟩ hp
  exact congrArg Host.Outcome.next (runScript_split sc ys s left hp)

theorem goesOnTo_ite {ys : List Answer} {c : Prop} [Decidable c] {q q' r r' : Result} (hq : GoesOnTo ys q q')
    (hr : GoesOnTo ys r r') : GoesOnTo ys (if c then q else r) (if c then q' else r') := by
  split
  · exact hq
  · exact hr

theorem goesOnTo_requireReady {ys : List Answer} {s : State} {body body' : Result}
    (h : GoesOnTo ys body body') :
    GoesOnTo ys (requireReady s body) (requireReady (moreAnswers ys s) body') :=
  goesOnTo_ite (goesOnTo_fail ys _ s _) h

theorem goesOnTo_withChannel {ys : List Answer} {v : Nat} {s s' : State} {body body' : Chan → Result}
    (h : ∀ c, GoesOnTo ys (body c) (body' c)) :
    GoesOnTo ys (withChannel v s body) (withChannel v s' body') := by
  by_cases hv : v < 18
  · rw [withChannel_valid hv, withChannel_valid hv]
    exact h _
  · rw [withChannel_invalid (by omega)]
    exact goesOnTo_fail ys _ s _

theorem goesOnTo_withVector {ys : List Answer} {sel : BitVec 24} {s s' : State}
    {body body' : BitVec 18 → Result} (h : ∀ m, GoesOnTo ys (body m) (body' m)) :
    GoesOnTo ys (withVector sel s body) (withVector sel s' body') := by
  by_cases hv : sel.extractLsb' 18 6 = 0
  · rw [withVector_valid hv, withVector_valid hv]
    exact h _
  · rw [withVector_invalid hv]
    exact goesOnTo_fail ys _ s _

theorem goesOnTo_withBrightness {ys : List Answer} {v : BitVec 16} {s s' : State}
    {body body' : Byte → Result} (h : ∀ b, GoesOnTo ys (body b) (body' b)) :
    GoesOnTo ys (withBrightness v s body) (withBrightness v s' body') := by
  by_cases hv : v.toNat ≤ 255
  · rw [withBrightness_valid hv, withBrightness_valid hv]
    exact h _
  · rw [withBrightness_invalid (by omega)]
    exact goesOnTo_fail ys _ s _

/-- A command reads the answers in its bus sequence only, so one that waits goes on to what it would have made
with all the answers at once. -/
theorem goesOnTo_exec (ys : List Answer) (i : Instr) (s : State) :
    GoesOnTo ys (exec i s) (exec i (moreAnswers ys s)) := by
  cases i with
  | openCmd => exact goesOnTo_ite (goesOnTo_fail ys _ s _) (goesOnTo_transmit ys _ (setMask 0 s))
  | closeCmd =>
    exact goesOnTo_ite (goesOnTo_transmit ys _ (setMask 0 s)) (goesOnTo_answerWith ys _ _ _)
  | outEnable | outDisable | chipReset => exact goesOnTo_requireReady (goesOnTo_transmit ys _ s)
  | chOnV sel | chOffV sel | maskLoad sel =>
    exact goesOnTo_requireReady (goesOnTo_withVector fun _ => goesOnTo_transmit ys _ (setMask _ s))
  | chOnI ch | chOffI ch =>
    exact goesOnTo_requireReady (goesOnTo_withChannel fun _ => goesOnTo_transmit ys _ (setMask _ s))
  | allOn | allOff => exact goesOnTo_requireReady (goesOnTo_transmit ys _ (setMask _ s))
  | isSet ch | gammaReset ch =>
    exact goesOnTo_requireReady (goesOnTo_withChannel fun _ => goesOnTo_answerWith ys _ _ _)
  | maskRead | gammaResetAll => exact goesOnTo_requireReady (goesOnTo_answerWith ys _ _ _)
  | gammaSet ch entries =>
    exact goesOnTo_requireReady (goesOnTo_withChannel fun _ => goesOnTo_ite (goesOnTo_fail ys _ s _)
      (goesOnTo_ite (goesOnTo_fail ys _ s _) (goesOnTo_answerWith ys _ _ _)))
  | translate ch val =>
    exact goesOnTo_requireReady (goesOnTo_withChannel fun _ => goesOnTo_withBrightness fun _ =>
      goesOnTo_answerWith ys _ _ _)
  | brightSet ch val =>
    exact goesOnTo_requireReady (goesOnTo_withChannel fun c => goesOnTo_withBrightness fun b =>
      goesOnTo_transmit ys _ (setBrightness c b s))
  | brightBulk pairs =>
    exact goesOnTo_requireReady (goesOnTo_ite (goesOnTo_fail ys _ s _)
      (goesOnTo_ite (goesOnTo_fail ys _ s _) (goesOnTo_transmit ys _ (setBr (applyPairs pairs s.br) s))))

theorem exec_resetLine {i : Instr} {s t : State} (h : exec i s = .next t) : t.resetLine = s.resetLine := by
  have hd := exec_cases i s
  rw [h] at hd
  cases hd with
  | failed e he => rfl
  | responded d u hu hp => exact hu.resetLine
  | launched sc u hu hp hl hc ho => exact (runScript_frame sc u).resetLine.trans hu.resetLine

theorem step_pending {s : State} {sc : Script} (hr : s.resetLine = false) (hp : s.pending = some sc) :
    step s = resume sc s := by
  simp [step, hr, hp]

/-- Settles O9: the step resumes the bus sequence the command waits in, and `goesOnTo_exec` says where that
leads. -/
theorem waitingForAnswersChangesNothing : Obligations.WaitingForAnswersChangesNothing := by
  intro i s t ys hr h hp
  obtain ⟨left, hleft⟩ := Option.isSome_iff_exists.mp hp
  have hline : t.resetLine = false := (exec_resetLine h).trans hr
  calc step { t with answers := ys } = resume left { t with answers := ys } := step_pending hline hleft
    _ = exec i (moreAnswers ys s) := goesOnTo_exec ys i s t left h hleft

end Sys2Proof.Machine
end

section
/-! The statements of 10_state.md on the reset values (R40, R34), on what each command may write (R21, R26, R27,
R31), and on the independence of the mask from the brightness registers and the tables (R29). -/

namespace Sys2Proof.Machine

open Sys2Proof.Spec

/-! ## The reset state -/

/-- Settles O11: every table of the reset state lists nothing, so it reads as `DEF`. -/
theorem resetStateIsThatOfTheTable : Obligations.ResetStateIsThatOfTheTable := by
  refine ⟨rfl, rfl, fun k => Vector.getElem_replicate k.isLt, fun c b => ?_, rfl, rfl, rfl⟩
  have hc : State.reset.lut[c] = [] := Vector.getElem_replicate c.isLt
  rw [readLut, hc, read_nil]

/-- Settles O46: with nothing received, sent or in progress only the tables have something to show. -/
theorem resetSatisfiesTheInvariant : Obligations.ResetSatisfiesTheInvariant where
  tables := reset_tables_wf
  receiving := rfl
  responses := nofun
  writes := nofun
  commits := rfl
  pending := rfl
  held := nofun

/-- R34, on the 255 entries after the first. -/
theorem defEntry_succ_floor : ∀ j : Fin 255,
    (defEntry (j + 1)).toNat ^ 255 ≤ 255 ^ j.val ∧ 255 ^ j.val < ((defEntry (j + 1)).toNat + 1) ^ 255 := by
  decide +kernel

/-- Settles O12: entry `j + 1` is the floor of the `255`-th root of `255 ^ j`. -/
theorem defaultTableIsTheFloorOfThePower : Obligations.DefaultTableIsTheFloorOfThePower := by
  refine ⟨by decide, fun i h1 h255 => ?_⟩
  obtain ⟨j, rfl⟩ := Nat.exists_eq_add_of_le' h1
  exact defEntry_succ_floor ⟨j, by omega⟩

/-! ## The writers of each register -/

/-- A bus sequence none of whose ends changes the phase leaves the phase as it is. -/
theorem runScript_phase {sc : Script} (h : scriptEndsIn none sc = true) (s : State) :
    (runScript sc s).phase = s.phase := by
  obtain ⟨-, hp | ⟨q, hq, -⟩⟩ := runScript_endsIn none sc s h
  · exact hp
  · cases hq

/-- Settles O45: a command's own updates are of its family's registers (`Updated`), and a bus sequence writes no
register but, for `OPEN` and `CLOSE`, the phase. -/
theorem eachRegisterHasItsOwnWriters : Obligations.EachRegisterHasItsOwnWriters := by
  intro i s t h
  have hdid := exec_cases i s
  rw [h] at hdid
  cases hdid with
  | failed e he => exact ⟨fun _ => rfl, fun _ => rfl, fun _ _ _ => rfl, fun _ _ => rfl⟩
  | responded d u hu hp => exact ⟨hu.br, hu.lut, hu.mask, fun _ => hu.phase⟩
  | launched sc u hu hp hl hc ho =>
    have hbus := runScript_frame sc u
    exact ⟨fun hn => hbus.br.trans (hu.br hn), fun hn => hbus.lut.trans (hu.lut hn),
      fun hn hopen hclose => hbus.mask.trans (hu.mask hn hopen hclose),
      fun hopen hclose => (runScript_phase (ho hopen hclose) u).trans hp⟩

/-! ## The order of the phases -/

theorem phaseRank_le_disposed (p : Phase) : phaseRank p ≤ phaseRank .disposed := by
  cases p <;> decide

/-- A bus sequence that ends in a phase no lower keeps the phase or moves it on. -/
theorem phaseRank_runScript_of_endsIn {p : Phase} {sc : Script} {s : State}
    (hends : scriptEndsIn (some p) sc = true) (hle : phaseRank s.phase ≤ phaseRank p) :
    phaseRank s.phase ≤ phaseRank (runScript sc s).phase := by
  obtain ⟨-, ht | ⟨_, ⟨⟩, ht⟩⟩ := runScript_endsIn _ sc s hends
  · rw [ht]
  · rwa [ht]

/-- R105: a bus sequence that fits the phase it runs in ends in `READY` if it runs in `UNINIT`, and in `READY` or
`DISPOSED` if it runs in `READY`. -/
theorem phaseRank_runScript {sc : Script} {s : State} (h : pendingFitsPhase s.phase sc = true) :
    phaseRank s.phase ≤ phaseRank (runScript sc s).phase := by
  simp only [pendingFitsPhase, Bool.and_eq_true, Bool.or_eq_true, decide_eq_true_eq] at h
  obtain ⟨-, ⟨hs, hready⟩ | ⟨-, hnone | hdisposed⟩⟩ := h
  · exact phaseRank_runScript_of_endsIn hready (by rw [hs]; decide)
  · rw [runScript_phase hnone]
  · exact phaseRank_runScript_of_endsIn hdisposed (phaseRank_le_disposed _)

/-- A command keeps the phase until it ends; `OPEN` and `CLOSE` then move it on (R105). -/
theorem phaseRank_exec {i : Instr} {s t : State} (h : exec i s = .next t) :
    phaseRank s.phase ≤ phaseRank t.phase := by
  have hdid := exec_cases i s
  rw [h] at hdid
  cases hdid with
  | failed e he => exact le_rfl
  | responded d u hu hp =>
    rw [respond_phase]
    obtain hi | ⟨-, hdisposed, -, -⟩ := hp
    · rw [hu.phase hi]
    · rw [hdisposed]
      exact phaseRank_le_disposed _
  | launched sc u hu hp hl hc ho =>
    rw [← hp]
    exact phaseRank_runScript hl.fits

/-- Everything a step can do while reset is released. -/
theorem step_cases {s t : State} (hr : s.resetLine = false) (h : step s = .next t) :
    (∃ sc, s.pending = some sc ∧ t = runScript sc s) ∨
    (s.pending = none ∧ fetch s = .wait ∧ t = waitForWords s) ∨
    (∃ why rest, s.pending = none ∧ fetch s = .illegal why rest ∧
      t = raise .illegalCommand (takePacket rest s)) ∨
    (∃ i rest, s.pending = none ∧ fetch s = .packet i rest ∧ exec i (takePacket rest s) = .next t) := by
  cases hp : s.pending with
  | some sc =>
    rw [step_pending hr hp] at h
    cases h
    exact .inl ⟨sc, rfl, rfl⟩
  | none =>
    cases hf : fetch s with
    | wait =>
      simp only [step, hr, hp, hf] at h
      cases h
      exact .inr (.inl ⟨rfl, rfl, rfl⟩)
    | illegal why rest =>
      simp only [step, hr, hp, hf] at h
      cases h
      exact .inr (.inr (.inl ⟨why, rest, rfl, rfl, rfl⟩))
    | packet i rest =>
      simp only [step, hr, hp, hf] at h
      exact .inr (.inr (.inr ⟨i, rest, rfl, rfl, h⟩))

/-- The command in progress fits the phase (R105). -/
theorem Invariant.pendingFits {s : State} (hs : Invariant s) {sc : Script} (hp : s.pending = some sc) :
    pendingFitsPhase s.phase sc = true := by
  have h := hs.pending
  simp only [pendingLegal, hp, Bool.and_eq_true] at h
  obtain ⟨⟨-, hfits⟩, -⟩ := h
  exact hfits

/-- Settles O49: the command in progress and the next command move the phase on or keep it; a step that only
takes words or rejects a header keeps it. -/
theorem phaseNeverGoesBackWithoutReset : Obligations.PhaseNeverGoesBackWithoutReset := by
  intro s t hs hr h
  obtain ⟨sc, hp, rfl⟩ | ⟨-, -, rfl⟩ | ⟨_, rest, -, -, rfl⟩ | ⟨i, rest, -, -, hi⟩ := step_cases hr h
  · exact phaseRank_runScript (hs.pendingFits hp)
  · exact le_rfl
  · exact le_rfl
  · have hrank := phaseRank_exec hi
    rwa [takePacket_phase] at hrank

/-! ## Registers a command neither reads nor writes -/

/-- A change of state that no ending of a command and no bus sequence sees or undoes. -/
structure Unseen (f : State → State) : Prop where
  phase : ∀ s, (f s).phase = s.phase
  answers : ∀ s, (f s).answers = s.answers
  setPhase : ∀ p s, setPhase p (f s) = f (setPhase p s)
  suspend : ∀ sc s, suspend sc (f s) = f (suspend sc s)
  logWrite : ∀ reg data a as s, logWrite reg data a as (f s) = f (logWrite reg data a as s)
  endCommand : ∀ w s, endCommand w (f s) = f (endCommand w s)

/-- The brightness registers and the tables replaced. -/
def setBrLut (br : Vector Byte 18) (lut : Vector Memory 18) (s : State) : State := setLut lut (setBr br s)

theorem unseen_setMask (m : BitVec 18) : Unseen (setMask m) where
  phase _ := rfl
  answers _ := rfl
  setPhase _ _ := rfl
  suspend _ _ := rfl
  logWrite _ _ _ _ _ := rfl
  endCommand _ _ := rfl

theorem unseen_setBrLut (br : Vector Byte 18) (lut : Vector Memory 18) : Unseen (setBrLut br lut) where
  phase _ := rfl
  answers _ := rfl
  setPhase _ _ := rfl
  suspend _ _ := rfl
  logWrite _ _ _ _ _ := rfl
  endCommand _ _ := rfl

section
variable {f : State → State} (hf : Unseen f)
include hf

theorem Unseen.runScript (sc : Script) : ∀ s, runScript sc (f s) = f (runScript sc s) := by
  induction sc with
  | finish p =>
    intro s
    cases p with
    | none => exact hf.endCommand _ s
    | some q => rw [runScript_finish, setPhaseIf, hf.setPhase]; exact hf.endCommand _ (Machine.setPhase q s)
  | write reg data k ih =>
    intro s
    have ha := hf.answers s
    cases h : s.answers with
    | nil => rw [runScript_write_wait (ha.trans h), runScript_write_wait h, hf.suspend]
    | cons a as =>
      cases a with
      | ok => rw [runScript_write_ok (ha.trans h), runScript_write_ok h, hf.logWrite, ih]
      | err e =>
        rw [runScript_write_err (ha.trans h), runScript_write_err h, hf.logWrite]
        exact hf.endCommand _ _
  | attempt reg data k l ihk ihl =>
    intro s
    have ha := hf.answers s
    cases h : s.answers with
    | nil => rw [runScript_attempt_wait (ha.trans h), runScript_attempt_wait h, hf.suspend]
    | cons a as =>
      cases a with
      | ok => rw [runScript_attempt_ok (ha.trans h), runScript_attempt_ok h, hf.logWrite, ihk]
      | err e => rw [runScript_attempt_err (ha.trans h), runScript_attempt_err h, hf.logWrite, ihl]

theorem Unseen.transmit (sc : Script) (s : State) : transmit sc (f s) = mapNext f (transmit sc s) :=
  congrArg Host.Outcome.next (hf.runScript sc s)

theorem Unseen.fail (e : Err) (s : State) : fail e (f s) = mapNext f (fail e s) :=
  congrArg Host.Outcome.next (hf.endCommand _ s)

theorem Unseen.requireReady {s : State} {body body' : Result} (h : body' = mapNext f body) :
    requireReady (f s) body' = mapNext f (requireReady s body) := by
  rw [Machine.requireReady, Machine.requireReady, hf.phase, hf.fail, h, apply_ite (mapNext f)]

theorem Unseen.withChannel {v : Nat} {s : State} {body body' : Chan → Result}
    (h : ∀ c, body' c = mapNext f (body c)) :
    withChannel v (f s) body' = mapNext f (withChannel v s body) := by
  cases hc : channelOf v with
  | none => simpa only [Machine.withChannel, hc] using hf.fail _ s
  | some c => simpa only [Machine.withChannel, hc] using h c

theorem Unseen.withVector {sel : BitVec 24} {s : State} {body body' : BitVec 18 → Result}
    (h : ∀ m, body' m = mapNext f (body m)) :
    withVector sel (f s) body' = mapNext f (withVector sel s body) := by
  cases hm : vectorOf sel with
  | none => simpa only [Machine.withVector, hm] using hf.fail _ s
  | some m => simpa only [Machine.withVector, hm] using h m

theorem Unseen.withBrightness {v : BitVec 16} {s : State} {body body' : Byte → Result}
    (h : ∀ b, body' b = mapNext f (body b)) :
    withBrightness v (f s) body' = mapNext f (withBrightness v s body) := by
  cases hb : brightnessOf v with
  | none => simpa only [Machine.withBrightness, hb] using hf.fail _ s
  | some b => simpa only [Machine.withBrightness, hb] using h b

end

theorem emitPwm_setMask (m : BitVec 18) (s : State) :
    emitPwm (setMask m s) = mapNext (setMask m) (emitPwm s) :=
  (unseen_setMask m).transmit (committedScript regPwm (pwmPayload s)) s

theorem emitMask_setBrLut (br : Vector Byte 18) (lut : Vector Memory 18) (s : State) :
    emitMask (setBrLut br lut s) = mapNext (setBrLut br lut) (emitMask s) :=
  (unseen_setBrLut br lut).transmit (committedScript regMask (pack s.mask)) s

/-- Settles O51: the checks and the PWM payload of a brightness command do not read the mask. -/
theorem brightnessCommandsIgnoreTheMask : Obligations.BrightnessCommandsIgnoreTheMask := by
  intro i s m hi
  have hf := unseen_setMask m
  cases i with
  | brightSet ch val =>
    exact hf.requireReady (hf.withChannel fun c => hf.withBrightness fun b =>
      emitPwm_setMask m (setBrightness c b s))
  | brightBulk pairs =>
    refine hf.requireReady ?_
    rw [apply_ite (mapNext _), apply_ite (mapNext _), ← hf.fail, ← hf.fail, ← emitPwm_setMask]
    rfl
  | _ => cases hi

/-- Settles O52: the checks, the new mask and the mask payload read neither brightness registers nor tables. -/
theorem maskCommandsIgnoreBrightnessAndTables : Obligations.MaskCommandsIgnoreBrightnessAndTables := by
  intro i s br lut hi
  have hf := unseen_setBrLut br lut
  have hmask (m : BitVec 18) := emitMask_setBrLut br lut (setMask m s)
  cases i with
  | chOnV sel | chOffV sel | maskLoad sel => exact hf.requireReady (hf.withVector fun _ => hmask _)
  | chOnI ch | chOffI ch => exact hf.requireReady (hf.withChannel fun _ => hmask _)
  | allOn | allOff => exact hf.requireReady (hmask _)
  | _ => cases hi

end Sys2Proof.Machine
end

section
/-! The statements of 20_memory.md on one step (R61): which words and answers it takes and what it puts out (R70),
and the invariant, that every step and every move of the host and the transport keeps (R56, R58, R63, R105). -/

namespace Sys2Proof

/-- Everything the decoder can say of a first word and the words after it. -/
theorem decode_cons_cases (h : Word) (ws : List Word) :
    decode (h :: ws) = .wait ∨ (∃ i n, decode (h :: ws) = .packet i (ws.drop n)) ∨
      ∃ why, decode (h :: ws) = .illegal why ws := by
  simp only [decode]
  cases decodeHeader h with
  | single i => exact .inr (.inl ⟨i, 0, rfl⟩)
  | illegal why => exact .inr (.inr ⟨why, rfl⟩)
  | gammaSet ch len =>
    by_cases hlen : ws.length < len
    · exact .inl (if_pos hlen)
    · exact .inr (.inl ⟨_, len, if_neg hlen⟩)
  | brightBulk len =>
    by_cases hlen : ws.length < len
    · exact .inl (if_pos hlen)
    · exact .inr (.inl ⟨_, len, if_neg hlen⟩)

/-- The words after a packet are the end of the words there were. -/
theorem decode_packet_suffix {ws rest : List Word} {i : Instr} (h : decode ws = .packet i rest) :
    rest <:+ ws := by
  cases ws with
  | nil => cases h
  | cons w ws =>
    obtain hw | ⟨j, n, hw⟩ | ⟨why, hw⟩ := decode_cons_cases w ws <;> rw [hw] at h <;> cases h
    exact (List.drop_suffix n ws).trans (List.suffix_cons w ws)

theorem decode_illegal_suffix {ws rest : List Word} {why : IllegalReason} (h : decode ws = .illegal why rest) :
    rest <:+ ws := by
  cases ws with
  | nil => cases h
  | cons w ws =>
    obtain hw | ⟨j, n, hw⟩ | ⟨why, hw⟩ := decode_cons_cases w ws <;> rw [hw] at h <;> cases h
    exact List.suffix_cons w rest

end Sys2Proof

namespace Sys2Proof.Machine

/-! ## A packet is run -/

theorem step_packet {s : State} {i : Instr} {rest : List Word} (hr : s.resetLine = false)
    (hp : s.pending = none) (hf : fetch s = .packet i rest) : step s = exec i (takePacket rest s) := by
  simp [step, hr, hp, hf]

/-- Settles O6: taking the packet leaves the receiver empty and the words after it on the port. -/
theorem stepRunsTheDecodedPacket : Obligations.StepRunsTheDecodedPacket :=
  fun _ _ _ hr hp hf => step_packet hr hp hf

/-! ## Output is appended, input is used from the front -/

/-- From `s` to `t` output is only appended, at most one response, and input used from the front. -/
structure Onward (s t : State) : Prop where
  trace : s.trace <+: t.trace
  responses : ∃ ws, ws.length ≤ 1 ∧ t.responses = s.responses ++ ws
  answers : t.answers <:+ s.answers
  words : t.rx ++ t.cmdPort <:+ s.rx ++ s.cmdPort
  line : t.resetLine = s.resetLine

theorem onward_setPort {r p : List Word} {s : State} (h : r ++ p <:+ s.rx ++ s.cmdPort) :
    Onward s (setPort r p s) :=
  ⟨⟨[], by simp⟩, ⟨[], by simp⟩, List.suffix_rfl, h, rfl⟩

theorem onward_endCommand (w : Word) (s : State) : Onward s (endCommand w s) :=
  ⟨⟨[], by simp⟩, ⟨[w], by simp⟩, List.suffix_rfl, List.suffix_rfl, rfl⟩

theorem onward_runScript (sc : Script) (s : State) : Onward s (runScript sc s) := by
  obtain ⟨⟨as, es, has, htrace, -⟩, hend⟩ := runScript_progress sc s
  have hbus := runScript_frame sc s
  refine ⟨⟨es, htrace.symm⟩, ?_, ⟨as, has.symm⟩, by rw [hbus.rx, hbus.cmdPort], hbus.resetLine⟩
  obtain ⟨-, w, hw⟩ | ⟨_, -, -, hnone, -⟩ := hend
  · exact ⟨[w], by simp, hw⟩
  · exact ⟨[], by simp, by simpa using hnone⟩

/-- The register updates of a command touch no port. -/
theorem Updated.onward {i : Instr} {s u t : State} (hu : Updated i s u) (h : Onward u t) : Onward s t :=
  ⟨hu.trace ▸ h.trace, hu.responses ▸ h.responses, hu.answers ▸ h.answers,
    hu.rx ▸ hu.cmdPort ▸ h.words, hu.resetLine ▸ h.line⟩

theorem onward_exec {i : Instr} {s t : State} (h : exec i s = .next t) : Onward s t := by
  have hdid := exec_cases i s
  rw [h] at hdid
  cases hdid with
  | failed e he => exact onward_endCommand _ s
  | responded d u hu hp => exact hu.onward (onward_endCommand _ u)
  | launched sc u hu hp hl hc ho => exact hu.onward (onward_runScript sc u)

/-- A step that first takes words from the front goes on from the state that holds the others. -/
theorem Onward.of_setPort {r p : List Word} {s t : State} (hw : r ++ p <:+ s.rx ++ s.cmdPort)
    (h : Onward (setPort r p s) t) : Onward s t :=
  ⟨h.trace, h.responses, h.answers, h.words.trans hw, h.line⟩

theorem onward_step {s t : State} (hr : s.resetLine = false) (h : step s = .next t) : Onward s t := by
  obtain ⟨sc, -, rfl⟩ | ⟨-, -, rfl⟩ | ⟨_, rest, -, hf, rfl⟩ | ⟨i, rest, -, hf, hi⟩ := step_cases hr h
  · exact onward_runScript sc s
  · exact onward_setPort (by simp)
  · exact .of_setPort (r := []) (decode_illegal_suffix hf) (onward_endCommand _ _)
  · exact .of_setPort (r := []) (decode_packet_suffix hf) (onward_exec hi)

/-- Settles O50: what is left of the words and of the answers is the end of what there was (`onward_step`). -/
theorem stepOnlyAppendsAndConsumesInOrder : Obligations.StepOnlyAppendsAndConsumesInOrder := by
  intro s t hr h
  obtain ⟨⟨es, htrace⟩, hresponses, ⟨as, has⟩, ⟨ws, hws⟩, hline⟩ := onward_step hr h
  exact ⟨⟨es, htrace.symm⟩, hresponses, ⟨as, has.symm⟩, ⟨ws, hws.symm⟩, hline.trans hr⟩

/-! ## The invariant: the command in progress -/

theorem pendingLegal_of_none {s : State} (hp : s.pending = none) :
    pendingLegal s = true ↔ owesAfter false s.trace = false := by
  simp [pendingLegal, hp]

theorem pendingLegal_of_some {s : State} {sc : Script} (hp : s.pending = some sc) :
    pendingLegal s = true ↔ s.rx = [] ∧ pendingFitsPhase s.phase sc = true ∧
      scriptDisciplined (owesAfter false s.trace) sc = true := by
  simp [pendingLegal, hp, and_assoc]

/-- What is left of a bus sequence fits the phase the whole fitted: it ends as the whole does. -/
theorem pendingFitsPhase_left {p : Phase} {sc left : Script} {s : State} (h : pendingFitsPhase p sc = true)
    (hleft : (runScript sc s).pending = some left) (hw : scriptWrites left = true) :
    pendingFitsPhase p left = true := by
  have hends (q : Option Phase) (hq : scriptEndsIn q sc = true) : scriptEndsIn q left = true :=
    (runScript_endsIn q sc s hq).1 left hleft
  simp only [pendingFitsPhase, Bool.and_eq_true, Bool.or_eq_true, decide_eq_true_eq] at h ⊢
  obtain ⟨-, h⟩ := h
  exact ⟨hw, h.imp (.imp_right (hends _)) (.imp_right (.imp (hends _) (hends _)))⟩

/-- A bus sequence that fits its phase and is disciplined for what the trace owes leaves one that is, if it
waits, and nothing owed, if it ends. -/
theorem pendingLegal_runScript {sc : Script} {s : State} (hrx : s.rx = [])
    (hfits : pendingFitsPhase s.phase sc = true)
    (hdisc : scriptDisciplined (owesAfter false s.trace) sc = true) : pendingLegal (runScript sc s) = true := by
  obtain ⟨hnone, howes⟩ | ⟨left, hleft, hwrites, hdisc', hphase⟩ := (runScript_traceKept sc s hdisc).pending
  · exact (pendingLegal_of_none hnone).mpr howes
  · refine (pendingLegal_of_some hleft).mpr ⟨(runScript_frame sc s).rx.trans hrx, ?_, hdisc'⟩
    rw [hphase]
    exact pendingFitsPhase_left hfits hleft hwrites

/-! ## The invariant: what each operation keeps -/

/-- With the reset input released the clause on the asserted input says nothing. -/
theorem held_of_released {s : State} (hr : s.resetLine = false) : s.resetLine = true → s = hardReset s :=
  fun h => absurd (hr.symm.trans h) (by decide)

theorem Invariant.owesNothing {s : State} (hs : Invariant s) (hp : s.pending = none) :
    owesAfter false s.trace = false :=
  (pendingLegal_of_none hp).mp hs.pending

/-- A command that ends with nothing owed. -/
theorem Invariant.endCommand {s : State} {w : Word} (hs : Invariant s) (hr : s.resetLine = false)
    (hp : s.pending = none) (hw : responseLegal w = true) : Invariant (endCommand w s) :=
  have howes := hs.owesNothing hp
  have hkept := traceKept_end hw howes
  { tables := hs.tables
    receiving := hs.receiving
    responses := hkept.responses hs.responses
    writes := hs.writes
    commits := hs.commits
    pending := (pendingLegal_of_none rfl).mpr howes
    held := held_of_released hr }

/-- A bus sequence that starts or goes on. -/
theorem Invariant.runScript {s : State} {sc : Script} (hs : Invariant s) (hr : s.resetLine = false)
    (hrx : s.rx = []) (hfits : pendingFitsPhase s.phase sc = true)
    (hdisc : scriptDisciplined (owesAfter false s.trace) sc = true) : Invariant (runScript sc s) :=
  have hbus := runScript_frame sc s
  have hkept := runScript_traceKept sc s hdisc
  { tables := hbus.lut ▸ hs.tables
    receiving := hbus.rx ▸ hs.receiving
    responses := hkept.responses hs.responses
    writes := hkept.writes hs.writes
    commits := hkept.commits hs.commits
    pending := pendingLegal_runScript hrx hfits hdisc
    held := held_of_released (hbus.resetLine.trans hr) }

/-- Words are moved between the port and the receiver, and no whole packet stays there. -/
theorem Invariant.setPort {s : State} {r : List Word} (hs : Invariant s) (hr : s.resetLine = false)
    (hp : s.pending = none) (hwait : decode r = .wait) (p : List Word) : Invariant (setPort r p s) :=
  { hs with
    receiving := hwait
    pending := (pendingLegal_of_none (s := Machine.setPort r p s) hp).mpr (hs.owesNothing hp)
    held := held_of_released hr }

/-- The register updates of a command, before it ends or starts its bus sequence. -/
theorem Updated.invariant {i : Instr} {s u : State} (hu : Updated i s u) (hs : Invariant s)
    (hr : s.resetLine = false) (hp : s.pending = none) : Invariant { u with pending := none } where
  tables := hu.tables hs.tables
  receiving := hu.rx ▸ hs.receiving
  responses := hu.responses ▸ hs.responses
  writes := hu.trace ▸ hs.writes
  commits := hu.trace ▸ hs.commits
  pending := (pendingLegal_of_none rfl).mpr (hu.trace ▸ hs.owesNothing hp)
  held := held_of_released (hu.resetLine.trans hr)

/-- A whole command, begun with nothing in progress and nothing received. -/
theorem Invariant.exec {i : Instr} {s t : State} (hs : Invariant s) (hr : s.resetLine = false)
    (hp : s.pending = none) (hrx : s.rx = []) (h : exec i s = .next t) : Invariant t := by
  have hdid := exec_cases i s
  rw [h] at hdid
  cases hdid with
  | failed e he =>
    have hconfig : e ≠ .invalidConfig := by rintro rfl; cases he
    exact hs.endCommand hr hp (responseLegal_err hconfig)
  | responded d u hu hready =>
    exact (hu.invariant hs hr hp).endCommand (hu.resetLine.trans hr) rfl (responseLegal_ok d)
  | launched sc u hu hphase hl hc ho =>
    have hdisc : scriptDisciplined (owesAfter false u.trace) sc = true := by
      rw [hu.trace, hs.owesNothing hp]
      exact hl.disciplined
    rw [← runScript_pending sc none]
    exact (hu.invariant hs hr hp).runScript (hu.resetLine.trans hr) (hu.rx.trans hrx) hl.fits hdisc

/-- The reset state with the inputs as they are, at either level of the reset input. -/
theorem invariant_hardReset (level : Bool) (s : State) : Invariant (setResetLine level (hardReset s)) where
  tables := reset_tables_wf
  receiving := rfl
  responses := nofun
  writes := nofun
  commits := rfl
  pending := rfl
  held _ := rfl

/-! ## The invariant: steps and moves -/

theorem step_asserted {s : State} (hr : s.resetLine = true) : step s = resetTo true s := by
  simp [step, hr, resetStep]

/-- Settles O47: with reset asserted the step gives the reset state; else it goes on with the command in
progress, takes words, rejects a header or runs a command, and each of these keeps the invariant. -/
theorem everyStepKeepsTheInvariant : Obligations.EveryStepKeepsTheInvariant := by
  intro s t hs h
  cases hr : s.resetLine with
  | true =>
    rw [step_asserted hr] at h
    obtain ⟨-, hstep⟩ | ⟨-, hstep⟩ := resetTo_cases true s <;> rw [hstep] at h <;> cases h
    exact invariant_hardReset true s
  | false =>
    obtain ⟨sc, hp, rfl⟩ | ⟨hp, hf, rfl⟩ | ⟨_, rest, hp, -, rfl⟩ | ⟨i, rest, hp, -, hi⟩ := step_cases hr h
    · obtain ⟨hrx, hfits, hdisc⟩ := (pendingLegal_of_some hp).mp hs.pending
      exact hs.runScript hr hrx hfits hdisc
    · exact hs.setPort hr hp hf []
    · exact (hs.setPort hr hp decode_nil rest).endCommand hr hp (responseLegal_err (by simp))
    · exact (hs.setPort hr hp decode_nil rest).exec hr hp rfl hi

/-- The host's words and the transport's answers are the inputs a reset keeps. -/
theorem Invariant.hostSends {s : State} (hs : Invariant s) (ws : List Word) : Invariant (hostSends ws s) :=
  { hs with held := fun h => congrArg (Machine.hostSends ws) (hs.held h) }

theorem Invariant.transportAnswers {s : State} (hs : Invariant s) (a : Answer) :
    Invariant (transportAnswers a s) :=
  { hs with held := fun h => congrArg (Machine.transportAnswers a) (hs.held h) }

theorem Invariant.driveReset {level : Bool} {s t : State} (hs : Invariant s)
    (h : driveReset level s = .next t) : Invariant t := by
  obtain ⟨-, -, rfl⟩ | ⟨-, rfl⟩ := driveReset_next h
  · exact hs
  · exact invariant_hardReset level s

/-- Settles O48, by induction on the moves that lead from reset to the state. -/
theorem everyReachableStateSatisfiesTheInvariant : Obligations.EveryReachableStateSatisfiesTheInvariant := by
  intro s h
  induction h with
  | reset => exact resetSatisfiesTheInvariant
  | step _ hstep ih => exact everyStepKeepsTheInvariant _ _ ih hstep
  | words ws _ ih => exact ih.hostSends ws
  | answer a _ ih => exact ih.transportAnswers a
  | line level _ hline ih => exact ih.driveReset hline

end Sys2Proof.Machine
end

section
/-! The statements of 30_encoding.md on packets and their words (R72 to R76), on the rows that select a header (R81 to
R84), on a narrower link (R71) and the pseudo-instructions (R90), and on how a command and a step end (R75, R85). -/

namespace Sys2Proof

/-! ## Packets of one header -/

section
variable {h : Word}

theorem decode_of_single {i : Instr} (hd : decodeHeader h = .single i) (ws : List Word) :
    decode (h :: ws) = .packet i ws := by
  simp only [decode, hd]

theorem decode_of_gammaSet {ch : BitVec 5} {len : Nat} (hd : decodeHeader h = .gammaSet ch len) (ws : List Word) :
    decode (h :: ws) =
      if ws.length < len then .wait else .packet (.gammaSet ch (ws.take len)) (ws.drop len) := by
  simp only [decode, hd]

theorem decode_of_brightBulk {len : Nat} (hd : decodeHeader h = .brightBulk len) (ws : List Word) :
    decode (h :: ws) = if ws.length < len then .wait
      else .packet (.brightBulk ((ws.take len).map pairOfWord)) (ws.drop len) := by
  simp only [decode, hd]

theorem decode_of_illegal {why : IllegalReason} (hd : decodeHeader h = .illegal why) (ws : List Word) :
    decode (h :: ws) = .illegal why ws := by
  simp only [decode, hd]

end

/-! ## Decoding after encoding -/

/-- A header of one word, from its opcode and its argument. -/
theorem decode_headerWord {o : Opcode} {a : BitVec 24} {i : Instr} (hr : a &&& o.format.reserved = 0)
    (hi : headerOperands (headerWord o a) o = .single i) (rest : List Word) :
    decode (headerWord o a :: rest) = .packet i rest :=
  decode_of_single ((decodeHeader_headerWord hr).trans hi) rest

theorem decode_encode_gammaSet {ch : BitVec 5} {es : List Word} (hlen : payloadFits es.length = true)
    (rest : List Word) : decode (encode (.gammaSet ch es) ++ rest) = .packet (.gammaSet ch es) rest := by
  have hd : decodeHeader (headerWord .gammaSet (argCV ch (BitVec.ofNat 16 es.length))) =
      .gammaSet ch es.length := by
    rw [decodeHeader_headerWord (argCV_reserved _ _), headerOperands, headerCh_headerWord, headerVal_headerWord,
      Laws.Framing.len_field hlen]
  refine (decode_of_gammaSet hd (es ++ rest)).trans ?_
  rw [List.take_left, List.drop_left, if_neg (by simp)]

theorem decode_encode_brightBulk {ps : List BrightPair} (hlen : payloadFits ps.length = true)
    (rest : List Word) : decode (encode (.brightBulk ps) ++ rest) = .packet (.brightBulk ps) rest := by
  have hd : decodeHeader (headerWord .brightBulk (argL (BitVec.ofNat 16 ps.length))) =
      .brightBulk ps.length := by
    rw [decodeHeader_headerWord (argL_reserved _), headerOperands, headerVal_argL, Laws.Framing.len_field hlen]
  have htake : (ps.map wordOfPair ++ rest).take ps.length = ps.map wordOfPair :=
    List.take_left' (List.length_map _)
  have hdrop : (ps.map wordOfPair ++ rest).drop ps.length = rest := List.drop_left' (List.length_map _)
  have hpairs : (ps.map wordOfPair).map pairOfWord = ps := by
    simp [Function.comp_def, pairOfWord_wordOfPair]
  refine (decode_of_brightBulk hd (ps.map wordOfPair ++ rest)).trans ?_
  rw [htake, hdrop, hpairs, if_neg (by simp)]

/-- Settles O1: in each format the fields of the encoded header are the operands, and its reserved bits are 0. -/
theorem decodingAnEncodedInstructionGivesItBack : Obligations.DecodingAnEncodedInstructionGivesItBack := by
  intro i rest hwf
  have hC (o : Opcode) (ch : BitVec 5) : headerCh (headerWord o (argC ch)) = ch := headerCh_headerWord o ch 0
  cases i with
  | openCmd | closeCmd | outEnable | outDisable | chipReset | allOn | allOff | maskRead | gammaResetAll =>
    exact decode_headerWord (by decide) rfl rest
  | chOnV sel | chOffV sel | maskLoad sel =>
    exact decode_headerWord BitVec.and_zero (by rw [headerOperands, headerArg_headerWord]) rest
  | chOnI ch | chOffI ch | isSet ch | gammaReset ch =>
    exact decode_headerWord (argC_reserved ch) (by rw [headerOperands, hC]) rest
  | translate ch val | brightSet ch val =>
    exact decode_headerWord (argCV_reserved ch val)
      (by rw [headerOperands, headerCh_headerWord, headerVal_headerWord]) rest
  | gammaSet ch es => exact decode_encode_gammaSet hwf rest
  | brightBulk ps => exact decode_encode_brightBulk hwf rest

/-! ## Encoding after decoding -/

theorem argN_of_reserved {h : Word} (hr : headerArg h &&& 0xFFFFFF = 0) : argN = headerArg h :=
  hr.symm.trans BitVec.and_allOnes

/-- A header that is a packet alone is the encoding of its instruction. -/
theorem encode_of_single {h : Word} {i : Instr} (hd : decodeHeader h = .single i) :
    i.wf = true ∧ encode i = [h] := by
  obtain ⟨o, hw, hr, ho⟩ := decodeHeader_legal (h := h) (by rw [hd]; nofun)
  rw [hd] at ho
  cases o with
  | openCmd | closeCmd | outEnable | outDisable | chipReset | allOn | allOff | maskRead | gammaResetAll =>
    cases ho
    refine ⟨rfl, ?_⟩
    rw [encode, argN_of_reserved hr, hw]
  | chOnV | chOffV | maskLoad =>
    cases ho
    exact ⟨rfl, congrArg ([·]) hw⟩
  | chOnI | chOffI | isSet | gammaReset =>
    cases ho
    refine ⟨rfl, ?_⟩
    rw [encode, argC_of_reserved hr, hw]
  | translate | brightSet =>
    cases ho
    refine ⟨rfl, ?_⟩
    rw [encode, argCV_of_reserved hr, hw]
  | gammaSet | brightBulk => cases ho

/-- A `GAMMA_SET` header is the word of its channel and length, and the length fits its field. -/
theorem headerWord_of_gammaSet {h : Word} {ch : BitVec 5} {len : Nat} (hd : decodeHeader h = .gammaSet ch len) :
    payloadFits len = true ∧ headerWord .gammaSet (argCV ch (BitVec.ofNat 16 len)) = h := by
  obtain ⟨o, hw, hr, ho⟩ := decodeHeader_legal (h := h) (by rw [hd]; nofun)
  rw [hd] at ho
  cases o with
  | gammaSet =>
    cases ho
    refine ⟨decide_eq_true (headerVal h).isLt, ?_⟩
    rw [BitVec.ofNat_toNat, BitVec.setWidth_eq, argCV_of_reserved hr, hw]
  | _ => cases ho

theorem headerWord_of_brightBulk {h : Word} {len : Nat} (hd : decodeHeader h = .brightBulk len) :
    payloadFits len = true ∧ headerWord .brightBulk (argL (BitVec.ofNat 16 len)) = h := by
  obtain ⟨o, hw, hr, ho⟩ := decodeHeader_legal (h := h) (by rw [hd]; nofun)
  rw [hd] at ho
  cases o with
  | brightBulk =>
    cases ho
    refine ⟨decide_eq_true (headerVal h).isLt, ?_⟩
    rw [BitVec.ofNat_toNat, BitVec.setWidth_eq, argL_of_reserved hr, hw]
  | _ => cases ho

/-- Settles O2: the header is rebuilt from its operands, and the payload is as many words as it tells. -/
theorem encodingADecodedPacketGivesItsWords : Obligations.EncodingADecodedPacketGivesItsWords := by
  intro ws i rest hdec
  cases ws with
  | nil => cases hdec
  | cons h ws =>
    cases hd : decodeHeader h with
    | illegal why =>
      rw [decode_of_illegal hd] at hdec
      cases hdec
    | single j =>
      rw [decode_of_single hd] at hdec
      cases hdec
      obtain ⟨hwf, henc⟩ := encode_of_single hd
      exact ⟨hwf, by rw [henc]; rfl⟩
    | gammaSet ch len =>
      rw [decode_of_gammaSet hd] at hdec
      split at hdec
      · cases hdec
      next hlen =>
        cases hdec
        obtain ⟨hfits, hword⟩ := headerWord_of_gammaSet hd
        have htake : (ws.take len).length = len := List.length_take_of_le (by omega)
        refine ⟨(congrArg payloadFits htake).trans hfits, ?_⟩
        rw [encode, htake, hword, List.cons_append, List.take_append_drop]
    | brightBulk len =>
      rw [decode_of_brightBulk hd] at hdec
      split at hdec
      · cases hdec
      next hlen =>
        cases hdec
        obtain ⟨hfits, hword⟩ := headerWord_of_brightBulk hd
        have htake : ((ws.take len).map pairOfWord).length = len := by simp; omega
        have hpairs : ((ws.take len).map pairOfWord).map wordOfPair = ws.take len := by
          simp [Function.comp_def, wordOfPair_pairOfWord]
        refine ⟨(congrArg payloadFits htake).trans hfits, ?_⟩
        rw [encode, htake, hword, hpairs, List.cons_append, List.take_append_drop]

/-- Settles O3: closed words, read off by evaluating the decoder. -/
theorem workedEncodingsDecode : Obligations.WorkedEncodingsDecode := by
  unfold Obligations.WorkedEncodingsDecode
  decide

/-! ## The rows of the opcode table -/

open Sys2Proof.Spec

/-- The row of this opcode selects the header (R81). -/
def Selects (o : Opcode) (h : Word) : Prop := headerOp h = o.code ∧ headerArg h &&& o.format.reserved = 0

/-- The columns match and mask of an opcode's row. -/
def rowOf (o : Opcode) : Word × Word := (o.code ++ 0#24, 0xFF#8 ++ o.format.reserved)

theorem rows_eq : rows = allOpcodes.map rowOf := by decide

theorem mem_allOpcodes (o : Opcode) : o ∈ allOpcodes := by
  cases o <;> decide

theorem headerOp_append_headerArg (h : Word) : headerOp h ++ headerArg h = h :=
  BitVec.extractLsb'_append_extractLsb' (w := 8) (len := 24) (x := h)

/-- Opcode and argument are compared apart. -/
theorem and_mask_eq_match_iff (o : Opcode) (h : Word) : h &&& (rowOf o).2 = (rowOf o).1 ↔ Selects o h := by
  have hand : h &&& (rowOf o).2 = headerOp h ++ (headerArg h &&& o.format.reserved) := by
    conv_lhs => rw [← headerOp_append_headerArg h, rowOf, BitVec.and_append]
    exact congrArg (· ++ _) BitVec.and_allOnes
  rw [hand]
  constructor
  · intro heq
    have hop := congrArg (BitVec.extractLsb' 24 8) heq
    have harg := congrArg (BitVec.extractLsb' 0 24) heq
    simp only [rowOf, BitVec.extractLsb'_append_eq_left, BitVec.extractLsb'_append_eq_right] at hop harg
    exact ⟨hop, harg⟩
  · rintro ⟨hop, harg⟩
    rw [hop, harg]
    rfl

theorem decodeHeader_of_selects {o : Opcode} {h : Word} (hs : Selects o h) :
    decodeHeader h = headerOperands h o := by
  obtain ⟨hop, hr⟩ := hs
  rw [← headerWord_of_op hop.symm, decodeHeader_headerWord hr]

theorem headerOperands_ne_illegal (o : Opcode) (h : Word) (why : IllegalReason) :
    headerOperands h o ≠ .illegal why := by
  cases o <;> nofun

/-- A header decodes by the row that selects it, or no row does and it is illegal (R82, R83). -/
theorem decodeHeader_cases (h : Word) :
    (∃ o, Selects o h ∧ decodeHeader h = headerOperands h o) ∨
    ((∀ o, ¬ Selects o h) ∧ ∃ why, decodeHeader h = .illegal why) := by
  by_cases hs : ∃ o, Selects o h
  · obtain ⟨o, ho⟩ := hs
    exact .inl ⟨o, ho, decodeHeader_of_selects ho⟩
  · refine .inr ⟨not_exists.mp hs, ?_⟩
    by_contra hlegal
    obtain ⟨o, hw, hr, -⟩ := decodeHeader_legal (not_exists.mp hlegal)
    exact hs ⟨o, by rw [← hw, headerOp_headerWord], hr⟩

/-- Only an illegal header makes the decoder answer one. -/
theorem decodeHeader_of_decode_illegal {h : Word} {ws rest : List Word} {why : IllegalReason}
    (hdec : decode (h :: ws) = .illegal why rest) : decodeHeader h = .illegal why := by
  cases hd : decodeHeader h with
  | illegal _ =>
    rw [decode_of_illegal hd] at hdec
    cases hdec
    rfl
  | single i =>
    rw [decode_of_single hd] at hdec
    cases hdec
  | gammaSet ch len =>
    rw [decode_of_gammaSet hd] at hdec
    split at hdec <;> cases hdec
  | brightBulk len =>
    rw [decode_of_brightBulk hd] at hdec
    split at hdec <;> cases hdec

theorem not_selects_iff_decode_illegal (h : Word) (ws : List Word) :
    (∀ o, ¬ Selects o h) ↔ ∃ why, decode (h :: ws) = .illegal why ws := by
  constructor
  · intro hnone
    obtain ⟨o, hs, -⟩ | ⟨-, why, hd⟩ := decodeHeader_cases h
    · exact absurd hs (hnone o)
    · exact ⟨why, decode_of_illegal hd ws⟩
  · rintro ⟨why, hdec⟩ o hs
    exact headerOperands_ne_illegal o h why
      ((decodeHeader_of_selects hs).symm.trans (decodeHeader_of_decode_illegal hdec))

/-- Settles O4: the rows are those of the 20 opcodes, and a header decodes by the row that selects it. -/
theorem headerIsIllegalExactlyWhenNoRowSelectsIt : Obligations.HeaderIsIllegalExactlyWhenNoRowSelectsIt := by
  intro h ws
  calc (∀ r ∈ rows, h &&& r.2 ≠ r.1) ↔ ∀ o, ¬ Selects o h := by
        simp [rows_eq, mem_allOpcodes, and_mask_eq_match_iff]
    _ ↔ ∃ why, decode (h :: ws) = .illegal why ws := not_selects_iff_decode_illegal h ws

/-! ## The length of a packet -/

theorem bearsPayload_iff (h : Word) : bearsPayload h ↔ Selects .gammaSet h ∨ Selects .brightBulk h :=
  or_congr (and_mask_eq_match_iff .gammaSet h) (and_mask_eq_match_iff .brightBulk h)

theorem headerOperands_single {o : Opcode} (hg : o ≠ .gammaSet) (hb : o ≠ .brightBulk) (h : Word) :
    ∃ i, headerOperands h o = .single i := by
  cases o with
  | gammaSet => exact absurd rfl hg
  | brightBulk => exact absurd rfl hb
  | _ => exact ⟨_, rfl⟩

/-- A header that bears a payload asks for as many words as its low 16 bits tell. -/
theorem decode_of_bearsPayload {h : Word} (hb : bearsPayload h) :
    ∃ f : List Word → Instr, ∀ ws, decode (h :: ws) =
      if ws.length < (headerVal h).toNat then .wait
      else .packet (f (ws.take (headerVal h).toNat)) (ws.drop (headerVal h).toNat) := by
  obtain hs | hs := (bearsPayload_iff h).mp hb
  · exact ⟨.gammaSet (headerCh h), decode_of_gammaSet (decodeHeader_of_selects hs)⟩
  · exact ⟨fun ws => .brightBulk (ws.map pairOfWord), decode_of_brightBulk (decodeHeader_of_selects hs)⟩

/-- Settles O5: only the two payload-bearing rows ask for more words than the header. -/
theorem packetLengthIsToldByTheHeaderAlone : Obligations.PacketLengthIsToldByTheHeaderAlone := by
  intro h ws
  refine ⟨fun hb hlen => ?_, fun hb hlen => ?_, fun hb => ?_⟩
  · obtain ⟨f, hf⟩ := decode_of_bearsPayload hb
    rw [hf]
    exact if_pos hlen
  · obtain ⟨f, hf⟩ := decode_of_bearsPayload hb
    rw [hf]
    exact ⟨_, if_neg (Nat.not_lt.mpr hlen)⟩
  · obtain ⟨o, hs, hd⟩ | ⟨-, why, hd⟩ := decodeHeader_cases h
    · rw [bearsPayload_iff, not_or] at hb
      obtain ⟨i, hi⟩ := headerOperands_single (h := h) (o := o) (by rintro rfl; exact hb.1 hs)
        (by rintro rfl; exact hb.2 hs)
      exact .inl ⟨i, decode_of_single (hd.trans hi) ws⟩
    · exact .inr ⟨why, decode_of_illegal hd ws⟩

end Sys2Proof

namespace Sys2Proof.Machine

open Sys2Proof.Spec

/-! ## How a command ends -/

theorem exec_next (i : Instr) (s : State) : ∃ t, exec i s = .next t := by
  have hdid := exec_cases i s
  generalize exec i s = r at hdid
  cases hdid with
  | failed e he => exact ⟨_, rfl⟩
  | responded d u hu hp => exact ⟨_, rfl⟩
  | launched sc u hu hp hl hc ho => exact ⟨_, rfl⟩

/-- A command has ended with one response more, or it waits, with every answer used up and no response (R209). -/
theorem exec_ended_or_waits {i : Instr} {s t : State} (h : exec i s = .next t) :
    (t.pending = none ∧ ∃ w, t.responses = s.responses ++ [w]) ∨
    (t.pending.isSome = true ∧ t.answers = [] ∧ t.responses = s.responses) := by
  have hdid := exec_cases i s
  rw [h] at hdid
  cases hdid with
  | failed e he => exact .inl ⟨rfl, _, rfl⟩
  | responded d u hu hp => exact .inl ⟨rfl, okWord d, by rw [respond_responses, hu.responses]⟩
  | launched sc u hu hp hl hc ho =>
    rw [← hu.responses]
    obtain hended | ⟨left, hleft, hanswers, hnone, -⟩ := (runScript_progress sc u).ending
    · exact .inl hended
    · exact .inr ⟨by rw [hleft]; rfl, hanswers, hnone⟩

/-- A command that has ended is the end of a run if no further word was sent (R239). -/
theorem runOver_exec {i : Instr} {s t : State} (h : exec i s = .next t) (hp : t.pending = none)
    (hr : s.resetLine = false) (hrx : s.rx = []) (hport : s.cmdPort = []) : runOver t = true := by
  have hon := onward_exec h
  have hwords : t.rx ++ t.cmdPort = [] := by simpa [hrx, hport] using hon.words
  obtain ⟨htrx, htport⟩ := List.append_eq_nil_iff.mp hwords
  exact (runOver_iff t).mpr ⟨hon.line.trans hr, htport, htrx, hp⟩

/-- Settles O38: `exec_ended_or_waits` has the two cases, and a run is over in the first only. -/
theorem everyCommandAnswersOnceOrWaits : Obligations.EveryCommandAnswersOnceOrWaits := by
  intro i s
  obtain ⟨t, h⟩ := exec_next i s
  refine ⟨t, h, ?_⟩
  obtain ⟨hp, hw⟩ | ⟨hp, hanswers, hnone⟩ := exec_ended_or_waits h
  · exact .inl ⟨hp, hw, fun hr hrx hport => runResult_of_over (runOver_exec h hp hr hrx hport)⟩
  · exact .inr ⟨hp, hanswers, hnone, runResult_awaiting hp⟩

/-! ## Steps that run no command -/

theorem errWord_illegalCommand : errWord .illegalCommand = 0x70000000 := by decide

theorem step_illegal {s : State} {why : IllegalReason} {rest : List Word} (hr : s.resetLine = false)
    (hp : s.pending = none) (hf : fetch s = .illegal why rest) :
    step s = .next (raise .illegalCommand (takePacket rest s)) := by
  simp [step, hr, hp, hf, rejectHeader, fail]

/-- Settles O7: the header is taken and `IllegalCommand` raised. -/
theorem stepAnswersAnIllegalHeader : Obligations.StepAnswersAnIllegalHeader := by
  intro s why rest hr hp hf
  rw [step_illegal hr hp hf, raise, errWord_illegalCommand]
  rfl

theorem step_wait {s : State} (hr : s.resetLine = false) (hp : s.pending = none) (hf : fetch s = .wait) :
    step s = .next (waitForWords s) := by
  simp [step, hr, hp, hf]

theorem waitForWords_of_no_words {s : State} (hrx : s.rx = []) (hport : s.cmdPort = []) : waitForWords s = s := by
  cases s
  cases hrx
  cases hport
  rfl

theorem suspend_of_pending {s : State} {sc : Script} (hp : s.pending = some sc) : suspend sc s = s := by
  rw [suspend, ← hp]

/-- A bus sequence that waits and is given no answer waits on. -/
theorem runScript_waiting {s : State} {sc : Script} (hp : s.pending = some sc) (hw : scriptWrites sc = true)
    (ha : s.answers = []) : runScript sc s = s := by
  cases sc with
  | finish p => cases hw
  | write reg data k => rw [runScript_write_wait ha, suspend_of_pending hp]
  | attempt reg data k l => rw [runScript_attempt_wait ha, suspend_of_pending hp]

/-- Settles O8: the words there are moved to the buffer, and a write without an answer is not run on. -/
theorem stepWaitsForWordsAndAnswers : Obligations.StepWaitsForWordsAndAnswers := by
  intro s hr
  refine ⟨fun hp hf => step_wait hr hp hf, fun hp hrx hport => ?_, fun sc hp hw ha => ?_⟩
  · have hf : fetch s = .wait := by rw [fetch, hrx, hport, List.append_nil, decode_nil]
    rw [step_wait hr hp hf, waitForWords_of_no_words hrx hport]
  · rw [step_pending hr hp, resume, transmit, runScript_waiting hp hw ha]

/-! ## A word on a narrower link -/

theorem wordByte_getLsbD (w : Word) (i : Fin 4) {j : Nat} (hj : j < 8) :
    (wordByte w i).getLsbD j = w.getLsbD (8 * i.val + j) := by
  simp [wordByte, hj]

/-- Bit `j` of one byte put back in its place. -/
theorem placed_getLsbD (w : Word) (i : Fin 4) {j : Nat} (hj : j < 32) :
    ((wordByte w i).setWidth 32 <<< (8 * i.val)).getLsbD j = (decide (j / 8 = i.val) && w.getLsbD j) := by
  rw [BitVec.getLsbD_shiftLeft, BitVec.getLsbD_setWidth]
  by_cases hji : j / 8 = i.val
  · rw [wordByte_getLsbD w i (by omega), show 8 * i.val + (j - 8 * i.val) = j by omega]
    simp [hji, hj, show ¬ j < 8 * i.val by omega, show j - 8 * i.val < 32 by omega]
  · by_cases hlow : j < 8 * i.val
    · simp [hji, hlow]
    · rw [BitVec.getLsbD_of_ge _ _ (show 8 ≤ j - 8 * i.val by omega)]
      simp [hji]

/-- The word put together has the bits of each byte that was sent. -/
theorem wordOfLink_getLsbD (w : Word) {j : Nat} (hj : j < 32) : ∀ order : LinkOrder,
    (wordOfLink order (wordToLink order w)).getLsbD j =
      (decide (∃ i ∈ order, j / 8 = i.val) && w.getLsbD j) := by
  intro order
  induction order with
  | nil => simp [wordOfLink]
  | cons i is ih =>
    have hcons : wordOfLink (i :: is) (wordToLink (i :: is) w) =
        ((wordByte w i).setWidth 32 <<< (8 * i.val)) ||| wordOfLink is (wordToLink is w) := rfl
    rw [hcons, BitVec.getLsbD_or, placed_getLsbD w i hj, ih]
    simp [Bool.and_or_distrib_right]

/-- An order of the link names each of the four bytes. -/
theorem mem_of_nodup {order : LinkOrder} (hnodup : order.Nodup) (hlen : order.length = 4) (i : Fin 4) :
    i ∈ order := by
  have hcard : order.toFinset.card = Fintype.card (Fin 4) := by
    rw [List.toFinset_card_of_nodup hnodup, hlen, Fintype.card_fin]
  exact List.mem_toFinset.mp ((Finset.card_eq_iff_eq_univ _).mp hcard ▸ Finset.mem_univ i)

/-- Settles O60: each bit is in a byte, and every byte is sent and put back in its place. -/
theorem everyLinkOrderCarriesTheWord : Obligations.EveryLinkOrderCarriesTheWord := by
  intro order w hnodup hlen
  refine BitVec.eq_of_getLsbD_eq fun j hj => ?_
  have hbyte : ∃ i ∈ order, j / 8 = i.val := ⟨⟨j / 8, by omega⟩, mem_of_nodup hnodup hlen _, rfl⟩
  rw [wordOfLink_getLsbD w hj, decide_eq_true hbyte, Bool.true_and]

/-! ## Pseudo-instructions -/

theorem entryValid_ofNat {n : Nat} (hn : n < 256) : entryValid (BitVec.ofNat 32 n) = true :=
  decide_eq_true (by rw [BitVec.toNat_ofNat]; omega)

theorem execGammaSet_valid {ch : BitVec 5} {es : List Word} {s : State} {c : Chan} (hp : s.phase = .ready)
    (hc : c.val = ch.toNat) (hlen : es.length = 256) (hvalid : es.all entryValid = true) :
    execGammaSet ch es s = .next (respond 0 (writeTable c (tableOf es) s)) := by
  have hch : ch.toNat < 18 := hc ▸ c.isLt
  have hchan : (⟨ch.toNat, hch⟩ : Chan) = c := Fin.ext hc.symm
  rw [execGammaSet, requireReady_ready hp, withChannel_valid hch, hchan, if_neg (not_not_intro hlen),
    if_neg (by simp [hvalid]), answerWith]

/-- The table `GAMMA_IDENTITY` sets. -/
theorem tableOf_identity_getD (b d : Byte) :
    (tableOf ((List.range 256).map fun n => BitVec.ofNat 32 n)).getD b.toNat d = b := by
  have hb : b.toNat < 256 := b.isLt
  simp [tableOf, hb]

theorem gammaIdentity_sets (s : State) (ch : BitVec 5) (c : Chan) (hp : s.phase = .ready)
    (hc : c.val = ch.toNat) :
    ∃ t, exec (gammaIdentity ch) s = .next t ∧ ∀ b : Byte, readLut t c b = b := by
  refine ⟨_, execGammaSet_valid hp hc (by simp) ?_, fun b => ?_⟩
  · simp only [List.all_map, List.all_eq_true, List.mem_range]
    exact fun n hn => entryValid_ofNat hn
  · refine (readLut_writeTable s c c _ b).trans ?_
    rw [if_pos rfl, tableOf_identity_getD]

/-- R90: the bit of ordinal `n` is bit `n - 1`. -/
theorem ordinalBit_getLsbD {n : Nat} (hn : 1 ≤ n ∧ n ≤ 18) (k : Nat) :
    (1#24 <<< (n - 1)).getLsbD k = decide (k + 1 = n) := by
  have hbit : n - 1 = k ↔ k + 1 = n := by omega
  refine (BitVec.getLsbD_twoPow (n - 1) k).trans ?_
  simp [hbit, show n - 1 < 24 by omega]

/-- R92: ordinals up to 18 select exactly the bits one below them. -/
theorem selOfOrdinals_getLsbD (ns : List Nat) (hns : ∀ n ∈ ns, 1 ≤ n ∧ n ≤ 18) :
    ∃ sel, selOfOrdinals ns = some sel ∧ ∀ k, sel.getLsbD k = decide (k + 1 ∈ ns) := by
  induction ns with
  | nil => exact ⟨0, rfl, by simp⟩
  | cons n ns ih =>
    obtain ⟨hn, htail⟩ := List.forall_mem_cons.mp hns
    obtain ⟨sel, hsel, hbits⟩ := ih htail
    refine ⟨(1#24 <<< (n - 1)) ||| sel, ?_, fun k => ?_⟩
    · rw [selOfOrdinals, hsel]
      exact if_pos ⟨hn.1, by omega⟩
    · rw [BitVec.getLsbD_or, hbits, ordinalBit_getLsbD hn]
      simp

/-- Settles O59: `selOfOrdinals_getLsbD` gives the bits, of which those from 18 on are of no ordinal. -/
theorem pseudoInstructionsExpandAsTabled : Obligations.PseudoInstructionsExpandAsTabled := by
  refine ⟨rfl, gammaIdentity_sets, fun ns hns => ?_⟩
  obtain ⟨sel, hsel, hbits⟩ := selOfOrdinals_getLsbD ns hns
  refine ⟨sel, by rw [chOnOrd, hsel]; rfl, by rw [chOffOrd, hsel]; rfl, ?_, fun k => hbits k⟩
  refine BitVec.eq_of_getLsbD_eq fun j hj => ?_
  have hnot : 18 + j + 1 ∉ ns := fun hmem => by have := hns _ hmem; omega
  simp [hbits, hnot]

end Sys2Proof.Machine
end

section
/-! The statements of 40_lifecycle_output.md on `OPEN` and `CLOSE` (R100, R101), on the single writes (R102 to R104),
and on what these five commands leave alone (R106). -/

namespace Sys2Proof.Machine

open Sys2Proof.Spec

/-! ## How a command ends, in the words of the statements -/

theorem errWord_transportError (e : Byte) : errWord (.transportError e) = transportErrorWord e := by
  have hstatus : (errStatus (.transportError e)).setWidth 32 <<< 28 = (0x60000000 : Word) := by rw [errStatus]; decide
  have hdata : (errData (.transportError e)).setWidth 32 = e.setWidth 32 := BitVec.setWidth_setWidth (by decide)
  rw [errWord, responseWord, hstatus, hdata, transportErrorWord]

theorem raise_transportError (e : Byte) (s : State) :
    raise (.transportError e) s = ended s (transportErrorWord e) := by
  rw [raise, errWord_transportError]
  rfl

theorem okWord_zero : okWord 0 = 0x00000000 := by decide

theorem respond_zero (s : State) : respond 0 s = ended s 0x00000000 := by
  rw [respond, okWord_zero]
  rfl

/-! ## A bus sequence, from the transactions made so far -/

/-- A command starts its bus sequence with no transaction made. -/
theorem transmit_eq_sent {s : State} {as : List Answer} (h : s.answers = as) (sc : Script) :
    transmit sc s = .next (runScript sc (sent s as [])) := by
  simp [transmit, sent, ← h]

theorem logWrite_sent (reg : Byte) (data : List Byte) (a : Answer) (as bs : List Answer) (es : List BusEntry)
    (s : State) : logWrite reg data a as (sent s bs es) = sent s as (es ++ [wr reg data a]) := by
  simp [logWrite, sent, busEntry, wr, busTarget]

section
variable (s : State) (as : List Answer) (es : List BusEntry) (reg : Byte) (data : List Byte)

theorem runScript_write_ok_sent (k : Script) :
    runScript (.write reg data k) (sent s (.ok :: as) es) =
      runScript k (sent s as (es ++ [wr reg data .ok])) := by
  rw [runScript_write_ok rfl, logWrite_sent]

theorem runScript_write_err_sent (e : Byte) (k : Script) :
    runScript (.write reg data k) (sent s (.err e :: as) es) =
      ended (sent s as (es ++ [wr reg data (.err e)])) (transportErrorWord e) := by
  rw [runScript_write_err rfl, logWrite_sent, raise_transportError]

theorem runScript_attempt_ok_sent (k l : Script) :
    runScript (.attempt reg data k l) (sent s (.ok :: as) es) =
      runScript k (sent s as (es ++ [wr reg data .ok])) := by
  rw [runScript_attempt_ok rfl, logWrite_sent]

theorem runScript_attempt_err_sent (e : Byte) (k l : Script) :
    runScript (.attempt reg data k l) (sent s (.err e :: as) es) =
      runScript l (sent s as (es ++ [wr reg data (.err e)])) := by
  rw [runScript_attempt_err rfl, logWrite_sent]

/-- R101: where both ways go on alike, the answer does not matter. -/
theorem runScript_attempt_sent (a : Answer) (k : Script) :
    runScript (.attempt reg data k k) (sent s (a :: as) es) =
      runScript k (sent s as (es ++ [wr reg data a])) := by
  cases a with
  | ok => exact runScript_attempt_ok_sent s as es reg data k k
  | err e => exact runScript_attempt_err_sent s as es reg data e k k

end

/-! ## `OPEN` -/

theorem execOpen_uninit {s : State} {as : List Answer} (hp : s.phase = .uninit) (ha : s.answers = as) :
    execOpen s = .next (runScript (openScript 0) (sent (setMask 0 s) as [])) := by
  rw [execOpen, if_neg (not_not_intro hp), transmit_eq_sent (s := setMask 0 s) ha]

theorem execOpen_notUninit {s : State} (hp : s.phase ≠ .uninit) : execOpen s = .next (raise .invalidState s) := by
  rw [execOpen, if_pos hp, fail]

/-- Settles O14: the three writes take the answers in turn, and the first that is not `ok` ends the command. -/
theorem openTurnsAllOffThenEnablesOutput : Obligations.OpenTurnsAllOffThenEnablesOutput := by
  refine ⟨by decide, fun s => ⟨fun hp =>
    ⟨fun as ha => ?_, fun e as ha => ?_, fun e as ha => ?_, fun e as ha => ?_⟩, fun hp => ?_⟩⟩
  · rw [exec, execOpen_uninit hp ha, openScript, runScript_write_ok_sent, runScript_write_ok_sent,
      runScript_write_ok_sent, runScript_finish, respond_zero]
    rfl
  · rw [exec, execOpen_uninit hp ha, openScript, runScript_write_err_sent]
    rfl
  · rw [exec, execOpen_uninit hp ha, openScript, runScript_write_ok_sent, runScript_write_err_sent]
    rfl
  · rw [exec, execOpen_uninit hp ha, openScript, runScript_write_ok_sent, runScript_write_ok_sent,
      runScript_write_err_sent]
    rfl
  · rw [exec, execOpen_notUninit hp, raise, errWord_invalidState]
    rfl

/-! ## `CLOSE` -/

theorem execClose_ready {s : State} {as : List Answer} (hp : s.phase = .ready) (ha : s.answers = as) :
    execClose s = .next (runScript (closeScript 0) (sent (setMask 0 s) as [])) := by
  rw [execClose, if_pos hp, transmit_eq_sent (s := setMask 0 s) ha]

theorem execClose_notReady {s : State} (hp : s.phase ≠ .ready) :
    execClose s = .next (respond 0 (setPhase .disposed s)) := by
  rw [execClose, if_neg hp, answerWith]

theorem runScript_closeOutput (s : State) (a : Answer) (as : List Answer) (es : List BusEntry) :
    runScript closeOutput (sent s (a :: as) es) =
      ended (setPhase .disposed (sent s as (es ++ [wr 0x00 [0x00] a]))) 0x00000000 := by
  rw [closeOutput, runScript_attempt_sent, runScript_finish, respond_zero]
  rfl

/-- Settles O15: only the answer to the mask write has a say, in whether the commit is made. -/
theorem closeTurnsOffWhateverTheAnswers : Obligations.CloseTurnsOffWhateverTheAnswers := by
  refine ⟨by decide, fun s => ⟨fun hp => ⟨fun b c as ha => ?_, fun e c as ha => ?_⟩, fun hp => ?_⟩⟩
  · rw [exec, execClose_ready hp ha, closeScript, runScript_attempt_ok_sent, runScript_attempt_sent,
      runScript_closeOutput]
    rfl
  · rw [exec, execClose_ready hp ha, closeScript, runScript_attempt_err_sent, runScript_closeOutput]
    rfl
  · rw [exec, execClose_notReady hp, respond_zero]
    rfl

/-! ## The single writes -/

/-- A command that starts a single write in state `s` does just that write. -/
theorem singleWrite_of_transmit {i : Instr} {s : State} {reg : Byte} {data : List Byte}
    (h : exec i s = transmit (singleScript reg data) s) : SingleWrite i s reg data := by
  refine ⟨fun as ha => ?_, fun e as ha => ?_⟩
  · rw [h, transmit_eq_sent ha, singleScript, runScript_write_ok_sent, runScript_finish, respond_zero]
    rfl
  · rw [h, transmit_eq_sent ha, singleScript, runScript_write_err_sent]
    rfl

/-- Settles O16: `OUT_ENABLE` is the phase check and a single write. -/
theorem outEnableWritesOutputOn : Obligations.OutEnableWritesOutputOn :=
  ⟨by decide, fun s => ⟨fun hp => singleWrite_of_transmit (requireReady_ready hp _),
    commandsOutsideReadyAnswerInvalidState .outEnable s nofun nofun⟩⟩

/-- Settles O17: `OUT_DISABLE` is the phase check and a single write. -/
theorem outDisableWritesOutputOff : Obligations.OutDisableWritesOutputOff :=
  ⟨by decide, fun s => ⟨fun hp => singleWrite_of_transmit (requireReady_ready hp _),
    commandsOutsideReadyAnswerInvalidState .outDisable s nofun nofun⟩⟩

/-- Settles O18: `CHIP_RESET` is the phase check and a single write. -/
theorem chipResetWritesTheResetRegisterOnly : Obligations.ChipResetWritesTheResetRegisterOnly :=
  ⟨by decide, fun s => ⟨fun hp => singleWrite_of_transmit (requireReady_ready hp _),
    commandsOutsideReadyAnswerInvalidState .chipReset s nofun nofun⟩⟩

/-! ## What the lifecycle and output commands leave alone -/

/-- No command takes words: a step has taken its packet before it runs the command (R61). -/
theorem exec_words {i : Instr} {s t : State} (h : exec i s = .next t) : t.rx = s.rx ∧ t.cmdPort = s.cmdPort := by
  have hd := exec_cases i s
  rw [h] at hd
  cases hd with
  | failed e he => exact ⟨rfl, rfl⟩
  | responded d u hu hp => exact ⟨hu.rx, hu.cmdPort⟩
  | launched sc u hu hp hl hc ho =>
    have hbus := runScript_frame sc u
    exact ⟨hbus.rx.trans hu.rx, hbus.cmdPort.trans hu.cmdPort⟩

theorem readLut_congr {s t : State} (h : t.lut = s.lut) (c : Chan) (b : Byte) : readLut t c b = readLut s c b := by
  rw [readLut, readLut, h]

theorem lifecycle_writes_no_brightness_or_table :
    ∀ i ∈ [Instr.openCmd, .closeCmd, .outEnable, .outDisable, .chipReset],
      writesBrightness i = false ∧ writesTables i = false := by decide

theorem output_writes_no_mask_or_phase :
    ∀ i ∈ [Instr.outEnable, .outDisable, .chipReset],
      writesMask i = false ∧ i ≠ .openCmd ∧ i ≠ .closeCmd := by decide

/-- Settles O40: none of the five is among the writers of the registers named (`eachRegisterHasItsOwnWriters`). -/
theorem lifecycleCommandsFrame : Obligations.LifecycleCommandsFrame := by
  intro i s t hi h
  obtain ⟨hbr, hlut, hmask, hphase⟩ := eachRegisterHasItsOwnWriters i s t h
  obtain ⟨hnobr, hnolut⟩ := lifecycle_writes_no_brightness_or_table i hi
  obtain ⟨hrx, hport⟩ := exec_words h
  refine ⟨hbr hnobr, hlut hnolut, readLut_congr (hlut hnolut), hrx, hport, exec_resetLine h, fun ho => ?_⟩
  obtain ⟨hnomask, hopen, hclose⟩ := output_writes_no_mask_or_phase i ho
  exact ⟨hphase hopen hclose, hmask hnomask hopen hclose⟩

end Sys2Proof.Machine
end

section
/-! The statements of 41_enable_mask.md: the seven mask-writing commands (R120 to R128), the two that read the mask
(R130, R131), what these commands leave alone, and the laws that relate them (R132). -/

namespace Sys2Proof.Machine

open Sys2Proof.Spec

/-! ## Fields and responses as numbers -/

/-- A field that fits below bit `v` is the same number whether it is placed in `v` bits first or not. -/
theorem setWidth_shiftLeft_of_fits {w v k n : Nat} (x : BitVec w) (hfits : w + n ≤ v) :
    (x.setWidth v <<< n).setWidth k = x.setWidth k <<< n := by
  refine BitVec.eq_of_getLsbD_eq fun i hi => ?_
  by_cases hv : i < v
  · simp [hi, hv]
  · simp [hv, BitVec.getLsbD_of_ge x (i - n) (by omega)]

theorem setWidth_argC (ch : BitVec 5) : (argC ch).setWidth 32 = ch.setWidth 32 <<< 16 := by
  simp [argC, argCV, setWidth_shiftLeft_of_fits ch (show 5 + 16 ≤ 24 by omega)]

/-- The word of format C: the opcode's byte above the channel field (R74). -/
theorem headerWord_argC (o : Opcode) (ch : BitVec 5) :
    headerWord o (argC ch) = (o.code.setWidth 32 <<< 24) ||| (ch.setWidth 32 <<< 16) := by
  rw [headerWord, setWidth_argC]

theorem errWord_invalidSpecifier : errWord .invalidSpecifier = 0x10000000 := by decide

theorem raise_invalidSpecifier (s : State) : raise .invalidSpecifier s = ended s 0x10000000 := by
  rw [raise, errWord_invalidSpecifier]
  rfl

/-- The status of a command that returned is 0, so its response word is its data (R85, R86). -/
theorem okWord_eq (d : BitVec 24) : okWord d = d.setWidth 32 := BitVec.zero_or

theorem okWord_isSetData (bit : Bool) : okWord (isSetData bit) = if bit then 0x00000001 else 0x00000000 := by
  cases bit <;> decide

theorem okWord_maskReadData (b0 b1 b2 : Byte) : okWord (maskReadData b0 b1 b2) =
    (b2.setWidth 32 <<< 16) ||| (b1.setWidth 32 <<< 8) ||| b0.setWidth 32 := by
  rw [okWord_eq, maskReadData, BitVec.setWidth_or, BitVec.setWidth_or,
    setWidth_shiftLeft_of_fits b2 (by decide), setWidth_shiftLeft_of_fits b1 (by decide),
    BitVec.setWidth_setWidth (by decide)]

/-! ## Operand checks, in the words of the statements -/

section
variable {i : Instr} {s : State}

theorem exec_of_badVector {sel : BitVec 24} {body : BitVec 18 → Result}
    (h : exec i s = requireReady s (withVector sel s body)) (hp : s.phase = .ready)
    (hsel : sel.extractLsb' 18 6 ≠ 0) : exec i s = .next (ended s 0x10000000) := by
  rw [h, requireReady_ready hp, withVector_invalid hsel, raise_invalidSpecifier]

theorem exec_of_badChannel {ch : BitVec 5} {body : Chan → Result}
    (h : exec i s = requireReady s (withChannel ch.toNat s body)) (hp : s.phase = .ready)
    (hch : 17 < ch.toNat) : exec i s = .next (ended s 0x10000000) := by
  rw [h, requireReady_ready hp, withChannel_invalid hch, raise_invalidSpecifier]

/-! ## A data write with its commit -/

/-- A command that starts a data write with its commit from the state `u`, which has the answers of `s`, does just
these two writes (R120). -/
theorem writeThenCommit_of_transmit {u : State} {reg : Byte} {data : List Byte}
    (h : exec i s = transmit (committedScript reg data) u) (hu : u.answers = s.answers) :
    WriteThenCommit i s u reg data := by
  refine ⟨fun as ha => ?_, fun e as ha => ?_, fun e as ha => ?_⟩
  · rw [h, transmit_eq_sent (hu.trans ha), committedScript, runScript_write_ok_sent, runScript_write_ok_sent,
      runScript_finish, respond_zero]
    rfl
  · rw [h, transmit_eq_sent (hu.trans ha), committedScript, runScript_write_err_sent]
    rfl
  · rw [h, transmit_eq_sent (hu.trans ha), committedScript, runScript_write_ok_sent, runScript_write_err_sent]
    rfl

theorem writeThenCommit_ok {u : State} {reg : Byte} {data : List Byte} {as : List Answer}
    (h : WriteThenCommit i s u reg data) (ha : s.answers = .ok :: .ok :: as) :
    ∃ t, exec i s = .next t ∧ t.phase = u.phase ∧ t.answers = as ∧ t.mask = u.mask := by
  obtain ⟨hok, -, -⟩ := h
  exact ⟨_, hok as ha, rfl, rfl, rfl⟩

/-- R120, R121: a command that assigns the mask and emits it writes the packed new mask, then commits. -/
theorem writeThenCommit_of_emitMask {m : BitVec 18} (h : exec i s = emitMask (setMask m s)) :
    WriteThenCommit i s { s with mask := m } 0x13 (pack m) :=
  writeThenCommit_of_transmit h rfl

theorem writeThenCommit_of_vector {sel : BitVec 24} {f : BitVec 18 → BitVec 18}
    (h : exec i s = requireReady s (withVector sel s fun m => emitMask (setMask (f m) s)))
    (hp : s.phase = .ready) (hsel : sel.extractLsb' 18 6 = 0) :
    WriteThenCommit i s { s with mask := f (sel.extractLsb' 0 18) } 0x13 (pack (f (sel.extractLsb' 0 18))) := by
  rw [requireReady_ready hp, withVector_valid hsel, BitVec.setWidth_eq_extractLsb' (by decide)] at h
  exact writeThenCommit_of_emitMask h

theorem writeThenCommit_of_channel {ch : BitVec 5} {f : BitVec 18 → BitVec 18}
    (h : exec i s = requireReady s (withChannel ch.toNat s fun c => emitMask (setMask (f (channelBit c)) s)))
    (hp : s.phase = .ready) (hch : ch.toNat ≤ 17) :
    WriteThenCommit i s { s with mask := f (1#18 <<< ch.toNat) } 0x13 (pack (f (1#18 <<< ch.toNat))) := by
  rw [requireReady_ready hp, withChannel_valid (by omega)] at h
  exact writeThenCommit_of_emitMask h

end

/-! ## The mask-writing commands -/

/-- Settles O19: the phase check, the check of the vector, and the new mask emitted. -/
theorem chOnVSetsTheSelectedBits : Obligations.ChOnVSetsTheSelectedBits := fun sel s =>
  ⟨rfl, writeThenCommit_of_vector (f := fun m => s.mask ||| m) rfl, exec_of_badVector rfl,
    commandsOutsideReadyAnswerInvalidState (.chOnV sel) s nofun nofun⟩

/-- Settles O20: the phase check, the check of the vector, and the new mask emitted. -/
theorem chOffVClearsTheSelectedBits : Obligations.ChOffVClearsTheSelectedBits := fun sel s =>
  ⟨rfl, writeThenCommit_of_vector (f := fun m => s.mask &&& ~~~m) rfl, exec_of_badVector rfl,
    commandsOutsideReadyAnswerInvalidState (.chOffV sel) s nofun nofun⟩

/-- Settles O25: the phase check, the check of the vector, and the vector itself emitted. -/
theorem maskLoadAssignsTheMask : Obligations.MaskLoadAssignsTheMask := fun sel s =>
  ⟨rfl, writeThenCommit_of_vector (f := id) rfl, exec_of_badVector rfl,
    commandsOutsideReadyAnswerInvalidState (.maskLoad sel) s nofun nofun⟩

/-- Settles O21: the phase check, the check of the channel, and the new mask emitted. -/
theorem chOnISetsOneBit : Obligations.ChOnISetsOneBit := fun ch s =>
  ⟨congrArg (· :: []) (headerWord_argC .chOnI ch),
    writeThenCommit_of_channel (f := fun m => s.mask ||| m) rfl, exec_of_badChannel rfl,
    commandsOutsideReadyAnswerInvalidState (.chOnI ch) s nofun nofun⟩

/-- Settles O22: the phase check, the check of the channel, and the new mask emitted. -/
theorem chOffIClearsOneBit : Obligations.ChOffIClearsOneBit := fun ch s =>
  ⟨congrArg (· :: []) (headerWord_argC .chOffI ch),
    writeThenCommit_of_channel (f := fun m => s.mask &&& ~~~m) rfl, exec_of_badChannel rfl,
    commandsOutsideReadyAnswerInvalidState (.chOffI ch) s nofun nofun⟩

/-- Settles O23: the full mask emitted, whose packed form is `[3F, 3F, 3F]`. -/
theorem allOnSetsEveryBit : Obligations.AllOnSetsEveryBit :=
  ⟨rfl, fun s => ⟨fun hp => writeThenCommit_of_emitMask (requireReady_ready hp _),
    commandsOutsideReadyAnswerInvalidState .allOn s nofun nofun⟩⟩

/-- Settles O24: the empty mask emitted, whose packed form is `[0, 0, 0]`. -/
theorem allOffClearsEveryBit : Obligations.AllOffClearsEveryBit :=
  ⟨rfl, fun s => ⟨fun hp => writeThenCommit_of_emitMask (requireReady_ready hp _),
    commandsOutsideReadyAnswerInvalidState .allOff s nofun nofun⟩⟩

/-! ## The commands that read the mask -/

/-- Settles O26: the phase check, the check of the channel, and the answer. -/
theorem isSetAnswersTheMaskBit : Obligations.IsSetAnswersTheMaskBit := fun ch s => by
  refine ⟨congrArg (· :: []) (headerWord_argC .isSet ch), fun hp hch => ?_, exec_of_badChannel rfl,
    commandsOutsideReadyAnswerInvalidState (.isSet ch) s nofun nofun⟩
  rw [exec, execIsSet, requireReady_ready hp, withChannel_valid (by omega), answerWith, respond, okWord_isSetData]
  rfl

/-- Settles O27: the three bytes of the packed mask are the groups the answer is put together from. -/
theorem maskReadAnswersThePackedMask : Obligations.MaskReadAnswersThePackedMask := by
  refine ⟨rfl, fun s => ⟨fun hp b0 b1 b2 hpack => ?_,
    commandsOutsideReadyAnswerInvalidState .maskRead s nofun nofun⟩⟩
  obtain ⟨rfl, rfl, rfl⟩ : packGroup s.mask 0 = b0 ∧ packGroup s.mask 1 = b1 ∧ packGroup s.mask 2 = b2 := by
    simpa [pack] using hpack
  rw [exec, execMaskRead, requireReady_ready hp, answerWith, respond, okWord_maskReadData]
  rfl

/-! ## What the mask commands leave alone -/

theorem mask_writes_nothing_else {i : Instr} (h : writesMask i = true) :
    writesBrightness i = false ∧ writesTables i = false ∧ i ≠ .openCmd ∧ i ≠ .closeCmd := by
  cases i with
  | chOnV | chOffV | chOnI | chOffI | allOn | allOff | maskLoad => exact ⟨rfl, rfl, nofun, nofun⟩
  | _ => cases h

/-- Settles O41: a mask-writing command is among the writers of no other register (`eachRegisterHasItsOwnWriters`). -/
theorem maskCommandsFrame : Obligations.MaskCommandsFrame := by
  intro i s t hi h
  obtain ⟨hbr, hlut, -, hphase⟩ := eachRegisterHasItsOwnWriters i s t h
  obtain ⟨hnobr, hnolut, hopen, hclose⟩ := mask_writes_nothing_else hi
  obtain ⟨hrx, hport⟩ := exec_words h
  exact ⟨hphase hopen hclose, hbr hnobr, hlut hnolut, readLut_congr (hlut hnolut), hrx, hport, exec_resetLine h⟩

/-- The result is `s` with one response more and nothing else changed. -/
def OnlyAnswers (s : State) (r : Result) : Prop := ∃ w, r = .next (ended s w)

theorem onlyAnswers_answerWith (d : BitVec 24) (s : State) : OnlyAnswers s (answerWith d s) := ⟨_, rfl⟩

theorem onlyAnswers_fail (e : Err) (s : State) : OnlyAnswers s (fail e s) := ⟨_, rfl⟩

theorem onlyAnswers_requireReady {s : State} {body : Result} (h : OnlyAnswers s body) :
    OnlyAnswers s (requireReady s body) := by
  rw [requireReady]
  split
  · exact onlyAnswers_fail _ s
  · exact h

theorem onlyAnswers_withChannel {v : Nat} {s : State} {body : Chan → Result} (h : ∀ c, OnlyAnswers s (body c)) :
    OnlyAnswers s (withChannel v s body) := by
  rw [withChannel]
  split
  · exact onlyAnswers_fail _ s
  · exact h _

theorem onlyAnswers_withBrightness {v : BitVec 16} {s : State} {body : Byte → Result}
    (h : ∀ b, OnlyAnswers s (body b)) : OnlyAnswers s (withBrightness v s body) := by
  rw [withBrightness]
  split
  · exact onlyAnswers_fail _ s
  · exact h _

/-- Settles O42: each of the three is a row of checks and an answer from the state it began in. -/
theorem readingCommandsChangeNothing : Obligations.ReadingCommandsChangeNothing := by
  intro i s t hi h
  have hanswers : OnlyAnswers s (exec i s) := by
    obtain ⟨ch, rfl⟩ | rfl | ⟨ch, val, rfl⟩ := hi
    · exact onlyAnswers_requireReady (onlyAnswers_withChannel fun _ => onlyAnswers_answerWith _ s)
    · exact onlyAnswers_requireReady (onlyAnswers_answerWith _ s)
    · exact onlyAnswers_requireReady (onlyAnswers_withChannel fun _ => onlyAnswers_withBrightness fun _ =>
        onlyAnswers_answerWith _ s)
  obtain ⟨w, hw⟩ := hanswers
  rw [h] at hw
  cases hw
  exact ⟨w, rfl⟩

/-! ## A bit set and cleared again -/

theorem pack_injective {m n : BitVec 18} (h : pack m = pack n) : m = n := by
  obtain ⟨h0, h1, h2⟩ : packGroup m 0 = packGroup n 0 ∧ packGroup m 1 = packGroup n 1 ∧
      packGroup m 2 = packGroup n 2 := by simpa [pack] using h
  rw [← unpack_packGroup m, h0, h1, h2, unpack_packGroup]

theorem getLsbD_one_shiftLeft {c k : Nat} (hk : k < 18) : (1#18 <<< c).getLsbD k = decide (k = c) := by
  rw [← BitVec.twoPow_eq, BitVec.getLsbD_twoPow]
  by_cases h : k = c
  · simp [← h, hk]
  · simp [h, Ne.symm h]

/-- Setting bit `c` and then clearing it clears it, and keeps every other bit. -/
theorem getLsbD_set_clear (m : BitVec 18) {c k : Nat} (hk : k < 18) :
    ((m ||| 1#18 <<< c) &&& ~~~(1#18 <<< c)).getLsbD k = (m.getLsbD k && decide (k ≠ c)) := by
  rw [BitVec.getLsbD_and, BitVec.getLsbD_or, BitVec.getLsbD_not, getLsbD_one_shiftLeft hk]
  by_cases h : k = c <;> simp [h, hk]

/-- Clearing a bit gives the mask back exactly when the bit was clear. -/
theorem set_clear_eq_iff (m : BitVec 18) {c : Nat} (hc : c < 18) :
    (m ||| 1#18 <<< c) &&& ~~~(1#18 <<< c) = m ↔ m.getLsbD c = false := by
  constructor
  · intro h
    rw [← h, getLsbD_set_clear m hc]
    simp
  · intro h
    refine BitVec.eq_of_getLsbD_eq fun k hk => ?_
    rw [getLsbD_set_clear m hk]
    by_cases hkc : k = c
    · rw [hkc, h, Bool.false_and]
    · simp [hkc]

/-- Settles O53: both commands end, so the last mask is the first with the bit set and then cleared. -/
theorem enableThenDisableClearsTheBit : Obligations.EnableThenDisableClearsTheBit := by
  intro s ch as hp hch ha
  obtain ⟨-, hon, -⟩ := chOnISetsOneBit ch s
  obtain ⟨t, ht, htp, hta, htm⟩ := writeThenCommit_ok (hon hp hch) ha
  obtain ⟨-, hoff, -⟩ := chOffIClearsOneBit ch t
  obtain ⟨u, hu, -, -, hum⟩ := writeThenCommit_ok (hoff (htp.trans hp) hch) hta
  have hmask : u.mask = (s.mask ||| 1#18 <<< ch.toNat) &&& ~~~(1#18 <<< ch.toNat) :=
    hum.trans (congrArg (· &&& _) htm)
  refine ⟨t, u, ht, hu, fun k => by rw [hmask, getLsbD_set_clear s.mask k.isLt], ?_⟩
  rw [hmask, ← set_clear_eq_iff s.mask (show ch.toNat < 18 by omega)]
  exact ⟨pack_injective, congrArg pack⟩

/-! ## One-channel and all-channel commands as vector commands -/

/-- The vector that selects one channel is valid, and selects the bit of that channel. -/
theorem vectorOf_channel : ∀ c : Chan, vectorOf (1#24 <<< c.val) = some (channelBit c) := by decide

theorem withChannel_eq_withVector {v : Nat} (hv : v < 18) (s : State) (body : BitVec 18 → Result) :
    withChannel v s (fun c => body (channelBit c)) = withVector (1#24 <<< v) s body := by
  rw [withChannel_valid hv, withVector, vectorOf_channel ⟨v, hv⟩]

/-- Settles O56: the checks agree, and so do the new masks. -/
theorem maskCommandsAgreeWithTheirVectorForms : Obligations.MaskCommandsAgreeWithTheirVectorForms := by
  intro s
  have hfull : (0x3FFFF : BitVec 18) = BitVec.allOnes 18 := by decide
  have hset : s.mask ||| 0x3FFFF = 0x3FFFF := by rw [hfull, BitVec.or_allOnes]
  have hclear : s.mask &&& ~~~0x3FFFF = 0x00000 := by rw [hfull, BitVec.not_allOnes, BitVec.and_zero]; rfl
  refine ⟨fun ch hch => ⟨?_, ?_⟩, ?_, rfl, ?_, rfl⟩
  · exact congrArg (requireReady s)
      (withChannel_eq_withVector (by omega) s fun m => emitMask (setMask (s.mask ||| m) s))
  · exact congrArg (requireReady s)
      (withChannel_eq_withVector (by omega) s fun m => emitMask (setMask (s.mask &&& ~~~m) s))
  · exact congrArg (fun m => requireReady s (emitMask (setMask m s))) hset.symm
  · exact congrArg (fun m => requireReady s (emitMask (setMask m s))) hclear.symm

end Sys2Proof.Machine
end


section
/-! The statements of 42_gamma.md: the four table commands (R151 to R155), what the table-writing ones leave alone
(R150), and the laws that relate them (R158). -/

namespace Sys2Proof.Machine

open Sys2Proof.Spec

/-! ## Header words and responses as numbers -/

/-- The word of formats CV and CL: the opcode's byte, the channel field, and the low 16 bits (R74). -/
theorem headerWord_argCV (o : Opcode) (ch : BitVec 5) (v : BitVec 16) :
    headerWord o (argCV ch v) =
      (o.code.setWidth 32 <<< 24) ||| (ch.setWidth 32 <<< 16) ||| v.setWidth 32 := by
  rw [headerWord, argCV, BitVec.setWidth_or, setWidth_shiftLeft_of_fits ch (by decide),
    BitVec.setWidth_setWidth (by decide), BitVec.or_assoc]

theorem errWord_invalidGammaTable : errWord .invalidGammaTable = 0x30000000 := by decide

theorem errWord_invalidValue : errWord .invalidValue = 0x40000000 := by decide

theorem fail_invalidGammaTable (s : State) : fail .invalidGammaTable s = .next (ended s 0x30000000) := by
  rw [fail, raise, errWord_invalidGammaTable]
  rfl

theorem raise_invalidValue (s : State) : raise .invalidValue s = ended s 0x40000000 := by
  rw [raise, errWord_invalidValue]
  rfl

theorem okWord_translateData (v : Byte) : okWord (translateData v) = v.setWidth 32 := by
  rw [okWord_eq, translateData, BitVec.setWidth_setWidth (by decide)]

/-! ## Operand checks, in the words of the statements -/

section
variable {i : Instr} {s : State} {ch : BitVec 5}

theorem exec_of_channel {body : Chan → Result} {c : Chan}
    (h : exec i s = requireReady s (withChannel ch.toNat s body)) (hp : s.phase = .ready)
    (hc : c.val = ch.toNat) : exec i s = body c := by
  have hch : ch.toNat < 18 := hc ▸ c.isLt
  have hchan : (⟨ch.toNat, hch⟩ : Chan) = c := Fin.ext hc.symm
  rw [h, requireReady_ready hp, withChannel_valid hch, hchan]

theorem exec_of_badValue {val : BitVec 16} {body : Chan → Byte → Result}
    (h : exec i s = requireReady s (withChannel ch.toNat s fun c => withBrightness val s (body c)))
    (hp : s.phase = .ready) (hch : ch.toNat ≤ 17) (hval : 255 < val.toNat) :
    exec i s = .next (ended s 0x40000000) := by
  rw [exec_of_channel (c := ⟨ch.toNat, by omega⟩) h hp rfl, withBrightness_invalid hval, raise_invalidValue]

end

theorem all_entryValid_iff {es : List Word} : es.all entryValid = true ↔ ∀ e ∈ es, e.toNat ≤ 255 := by
  simp [entryValid]

/-! ## One table replaced -/

/-- R53: a command that ends with one table replaced answers 0, and that table is the new one. -/
theorem exec_of_writeTable {i : Instr} {s : State} {c : Chan} {table : List Byte}
    (h : exec i s = .next (respond 0 (writeTable c table s))) :
    ∃ t, exec i s = .next (ended { s with lut := t } 0x00000000) ∧
      (∀ b : Byte, readLut { s with lut := t } c b = table.getD b.toNat (defEntry b.toNat)) ∧
      (∀ d : Chan, d ≠ c → t[d] = s.lut[d]) := by
  refine ⟨s.lut.set c (Memory.ofTable table), ?_, fun b => ?_, fun d hd => ?_⟩
  · rw [h, respond_zero]
    rfl
  · exact (readLut_writeTable s c c table b).trans (if_pos rfl)
  · exact Vector.getElem_set_ne c.isLt d.isLt (Fin.val_ne_of_ne hd.symm)

theorem tableOf_getD {es : List Word} {n : Nat} (hn : n < es.length) (d : Byte) :
    (tableOf es).getD n d = (es.getD n 0).setWidth 8 := by
  simp [tableOf, hn]

theorem defTable_getD (n : Nat) : defTable.getD n (defEntry n) = defEntry n := by
  by_cases hn : n < defTable.length
  · rw [List.getD_eq_getElem _ _ hn, defTable_getElem hn]
  · exact List.getD_eq_default _ _ (by omega)

theorem execGammaReset_valid {ch : BitVec 5} {s : State} {c : Chan} (hp : s.phase = .ready)
    (hc : c.val = ch.toNat) : exec (.gammaReset ch) s = .next (respond 0 (writeTable c defTable s)) :=
  exec_of_channel (i := .gammaReset ch) (body := fun c => answerWith 0 (writeTable c defTable s)) rfl hp hc

/-- Settles O28: the phase check, then the checks of the channel, the length and the entries, in this order. -/
theorem gammaSetReplacesOneTable : Obligations.GammaSetReplacesOneTable := by
  intro ch es s
  refine ⟨fun hlen => ?_, fun hp hlen hle c hc => ?_, exec_of_badChannel rfl, fun hp hch hlen => ?_,
    fun hp hch hlen hbad => ?_, commandsOutsideReadyAnswerInvalidState (.gammaSet ch es) s nofun nofun⟩
  · rw [encode, headerWord_argCV, BitVec.setWidth_ofNat_of_le_of_lt (by decide) hlen]
    rfl
  · obtain ⟨t, ht, hread, hother⟩ :=
      exec_of_writeTable (i := .gammaSet ch es) (execGammaSet_valid hp hc hlen (all_entryValid_iff.mpr hle))
    exact ⟨t, ht, fun b => (hread b).trans (tableOf_getD (by omega) _), hother⟩
  · rw [exec_of_channel (c := ⟨ch.toNat, by omega⟩) rfl hp rfl, if_pos hlen, fail_invalidGammaTable]
  · obtain ⟨e, he, hgt⟩ := hbad
    have hinvalid : ¬ es.all entryValid = true := fun hall => (all_entryValid_iff.mp hall e he).not_gt hgt
    rw [exec_of_channel (c := ⟨ch.toNat, by omega⟩) rfl hp rfl, if_neg (not_not_intro hlen),
      if_pos (by simpa using hinvalid), fail, raise_invalidValue]

/-- Settles O29: the phase check, the check of the channel, and the default table written. -/
theorem gammaResetRestoresOneTable : Obligations.GammaResetRestoresOneTable := by
  refine fun ch s => ⟨congrArg (· :: []) (headerWord_argC .gammaReset ch), fun hp c hc => ?_,
    exec_of_badChannel rfl, commandsOutsideReadyAnswerInvalidState (.gammaReset ch) s nofun nofun⟩
  obtain ⟨t, ht, hread, hother⟩ := exec_of_writeTable (execGammaReset_valid hp hc)
  exact ⟨t, ht, fun b => (hread b).trans (defTable_getD _), hother⟩

/-! ## Looking an entry up -/

/-- Settles O31: the phase check, the checks of the channel and the value, and the answer. -/
theorem translateAnswersTheTableEntry : Obligations.TranslateAnswersTheTableEntry := by
  refine fun ch val s => ⟨congrArg (· :: []) (headerWord_argCV .translate ch val), fun hp hval c hc => ?_,
    exec_of_badChannel rfl, exec_of_badValue rfl,
    commandsOutsideReadyAnswerInvalidState (.translate ch val) s nofun nofun⟩
  have hbyte : val.setWidth 8 = val.extractLsb' 0 8 := BitVec.setWidth_eq_extractLsb' (by decide)
  rw [exec_of_channel rfl hp hc, withBrightness_valid hval, hbyte, answerWith, respond, okWord_translateData]
  rfl

/-- A valid entry is its low byte. -/
theorem setWidth_setWidth_of_le_255 {e : Word} (h : e.toNat ≤ 255) : (e.setWidth 8).setWidth 32 = e := by
  bv_omega

theorem toNat_extractLsb'_of_le_255 {val : BitVec 16} (h : val.toNat ≤ 255) :
    (val.extractLsb' 0 8).toNat = val.toNat := by
  rw [BitVec.extractLsb'_toNat, Nat.shiftRight_zero]
  exact Nat.mod_eq_of_lt (by omega)

/-- Settles O54: `TRANSLATE` answers the entry read from the table that `GAMMA_SET` left. -/
theorem translateAnswersTheEntryThatWasSet : Obligations.TranslateAnswersTheEntryThatWasSet := by
  intro s ch es val hp hch hlen hle hval
  obtain ⟨c, hc⟩ : ∃ c : Chan, c.val = ch.toNat := ⟨⟨ch.toNat, by omega⟩, rfl⟩
  obtain ⟨-, hset, -⟩ := gammaSetReplacesOneTable ch es s
  obtain ⟨t, ht, hread, -⟩ := hset hp hlen hle c hc
  obtain ⟨-, htranslate, -⟩ := translateAnswersTheTableEntry ch val (ended { s with lut := t } 0x00000000)
  have hlookup : readLut (ended { s with lut := t } 0x00000000) c (val.extractLsb' 0 8) =
      (es.getD val.toNat 0).setWidth 8 := by
    rw [← toNat_extractLsb'_of_le_255 hval]
    exact hread _
  have hentry : (es.getD val.toNat 0).toNat ≤ 255 := by
    rw [List.getD_eq_getElem _ _ (by omega)]
    exact hle _ (List.getElem_mem _)
  refine ⟨_, ht, ?_⟩
  rw [htranslate hp hval c hc, hlookup, setWidth_setWidth_of_le_255 hentry]

/-! ## Tables reset one after the other -/

/-- The tables with those of the channels listed back at the default, which lists nothing (R32). -/
def resetTables (cs : List Chan) (lut : Vector Memory 18) : Vector Memory 18 :=
  cs.foldl (fun l (c : Chan) => l.set c []) lut

theorem resetTables_cons (c : Chan) (cs : List Chan) (lut : Vector Memory 18) :
    resetTables (c :: cs) lut = resetTables cs (lut.set c []) := rfl

theorem resetTables_getElem (cs : List Chan) (d : Chan) : ∀ lut : Vector Memory 18,
    (resetTables cs lut)[d] = if d ∈ cs then [] else lut[d] := by
  induction cs with
  | nil => exact fun lut => rfl
  | cons c cs ih =>
    intro lut
    rw [resetTables_cons, ih]
    by_cases hd : d = c
    · simp [hd]
    · simp [hd, Vector.getElem_set_ne c.isLt d.isLt (Fin.val_ne_of_ne (Ne.symm hd))]

/-- R158d: the order of the channels, and naming one twice, does not matter. -/
theorem resetTables_of_cover {cs : List Chan} (h : ∀ c, c ∈ cs) (lut : Vector Memory 18) :
    resetTables cs lut = Vector.replicate 18 [] := by
  refine Vector.ext fun n hn => ?_
  rw [Vector.getElem_replicate]
  exact (resetTables_getElem cs ⟨n, hn⟩ lut).trans (if_pos (h _))

theorem writeTable_defTable (c : Chan) (s : State) : writeTable c defTable s = setLut (s.lut.set c []) s := by
  rw [writeTable, ofTable_defTable]

theorem foldl_writeTable_defTable (cs : List Chan) : ∀ s : State,
    cs.foldl (fun t c => writeTable c defTable t) s = setLut (resetTables cs s.lut) s := by
  induction cs with
  | nil => exact fun s => rfl
  | cons c cs ih =>
    intro s
    rw [List.foldl_cons, ih, writeTable_defTable]
    rfl

theorem execGammaResetAll_ready {s : State} (hp : s.phase = .ready) :
    exec .gammaResetAll s = .next (ended { s with lut := Vector.replicate 18 [] } 0x00000000) := by
  rw [exec, execGammaResetAll, requireReady_ready hp, answerWith, foldl_writeTable_defTable,
    resetTables_of_cover List.mem_finRange, respond_zero]
  rfl

/-- Settles O30: every table is left listing nothing, so it reads as `DEF`. -/
theorem gammaResetAllRestoresEveryTable : Obligations.GammaResetAllRestoresEveryTable := by
  refine ⟨rfl, fun s => ⟨fun hp => ⟨_, execGammaResetAll_ready hp, fun c b => ?_⟩,
    commandsOutsideReadyAnswerInvalidState .gammaResetAll s nofun nofun⟩⟩
  have hc : (Vector.replicate 18 ([] : Memory))[c] = [] := Vector.getElem_replicate c.isLt
  rw [readLut, hc, read_nil]

/-- `GAMMA_RESET` of one channel more, in the state reached. -/
def thenReset (r : Result) (c : Chan) : Result :=
  match r with
  | .next v => exec (.gammaReset (BitVec.ofNat 5 c.val)) v
  | .fault f => .fault f
  | .refused r => .refused r

theorem foldl_thenReset (cs : List Chan) : ∀ s : State, s.phase = .ready →
    ∃ u, cs.foldl thenReset (.next s) = .next u ∧ u.lut = resetTables cs s.lut := by
  induction cs with
  | nil => exact fun s _ => ⟨s, rfl, rfl⟩
  | cons c cs ih =>
    intro s hp
    have hc : c.val = (BitVec.ofNat 5 c.val).toNat := by
      rw [BitVec.toNat_ofNat]
      omega
    obtain ⟨u, hu, hlut⟩ := ih (respond 0 (setLut (s.lut.set c []) s)) hp
    refine ⟨u, ?_, hlut⟩
    rw [List.foldl_cons, thenReset, execGammaReset_valid hp hc, writeTable_defTable, hu]

/-- Settles O55: both ways leave every table listing nothing. -/
theorem gammaResetAllEqualsEighteenResets : Obligations.GammaResetAllEqualsEighteenResets := by
  intro s order hp hcover
  obtain ⟨u, hu, hlut⟩ := foldl_thenReset order s hp
  exact ⟨_, u, execGammaResetAll_ready hp, (hlut.trans (resetTables_of_cover hcover s.lut)).symm, hu⟩

/-! ## What the table-writing commands leave alone -/

section
variable {P : Result → Prop} {s : State} (hfail : ∀ e, P (fail e s))
include hfail

/-- What holds of every failure and of the body holds of the body behind the phase check. -/
theorem requireReady_induction {body : Result} (h : s.phase = .ready → P body) : P (requireReady s body) :=
  iteInduction (fun _ => hfail _) fun hp => h (not_not.mp hp)

theorem withChannel_induction {v : Nat} {body : Chan → Result} (h : ∀ c : Chan, c.val = v → P (body c)) :
    P (withChannel v s body) := by
  by_cases hv : v < 18
  · rw [withChannel_valid hv]
    exact h _ rfl
  · rw [withChannel_invalid (by omega)]
    exact hfail .invalidSpecifier

end

/-- The result is `s` with one response more and nothing else changed but tables that `touched` admits. -/
def OnlyTables (touched : Chan → Prop) (s : State) (r : Result) : Prop :=
  ∃ t w, r = .next (ended { s with lut := t } w) ∧ ∀ d : Chan, ¬ touched d → t[d] = s.lut[d]

section
variable {touched : Chan → Prop} {s : State}

theorem onlyTables_fail (e : Err) : OnlyTables touched s (fail e s) := ⟨s.lut, _, rfl, fun _ _ => rfl⟩

theorem onlyTables_writeTable {c : Chan} (hc : touched c) (table : List Byte) :
    OnlyTables touched s (answerWith 0 (writeTable c table s)) :=
  ⟨_, _, rfl, fun d hd =>
    Vector.getElem_set_ne c.isLt d.isLt (Fin.val_ne_of_ne fun hcd => hd (hcd ▸ hc))⟩

theorem OnlyTables.frame {t : State} (h : OnlyTables touched s (.next t)) :
    (∃ w, t = ended { s with lut := t.lut } w) ∧ ∀ d : Chan, ¬ touched d → t.lut[d] = s.lut[d] := by
  obtain ⟨lut, w, ⟨⟩, hkeep⟩ := h
  exact ⟨⟨w, rfl⟩, hkeep⟩

end

/-- The channels whose tables a table-writing command may replace. -/
def namesTable : Instr → Chan → Prop
  | .gammaSet ch _, d => d.val = ch.toNat
  | .gammaReset ch, d => d.val = ch.toNat
  | _, _ => True

theorem exec_onlyTables {i : Instr} (hi : writesTables i = true) (s : State) :
    OnlyTables (namesTable i) s (exec i s) := by
  have hfail : ∀ e, OnlyTables (namesTable i) s (fail e s) := onlyTables_fail
  cases i with
  | gammaSet ch es =>
    exact requireReady_induction hfail fun _ => withChannel_induction hfail fun c hc =>
      iteInduction (fun _ => hfail _) fun _ => iteInduction (fun _ => hfail _) fun _ => onlyTables_writeTable hc _
  | gammaReset ch =>
    exact requireReady_induction hfail fun _ => withChannel_induction hfail fun c hc => onlyTables_writeTable hc _
  | gammaResetAll =>
    exact requireReady_induction hfail fun hp =>
      ⟨_, _, (requireReady_ready hp _).symm.trans (execGammaResetAll_ready hp), fun _ hd => absurd trivial hd⟩
  | _ => cases hi

/-- Settles O43: a table is read through its own cells, so one that is kept reads as before. -/
theorem gammaCommandsFrame : Obligations.GammaCommandsFrame := by
  intro i s t hi h
  obtain ⟨hresponse, hkeep⟩ := OnlyTables.frame (h ▸ exec_onlyTables hi s)
  refine ⟨hresponse, fun ch hch d hd => ?_⟩
  have hlut : t.lut[d] = s.lut[d] := hkeep d (by obtain ⟨es, rfl⟩ | rfl := hch <;> exact hd)
  exact ⟨hlut, fun b => congrArg (Memory.read · b.toNat) hlut⟩

end Sys2Proof.Machine
end

section
/-! The statements of 43_brightness.md: the two brightness commands (R171, R173), what they leave alone (R176), and the
laws that relate them (R174, R176d). -/

namespace Sys2Proof.Machine

open Sys2Proof.Spec

/-! ## The payload of `BRIGHT_BULK` -/

/-- The low byte of a value field, in the form the statements write it. -/
theorem setWidth_eq_lowByte (v : BitVec 16) : v.setWidth 8 = v.extractLsb' 0 8 :=
  BitVec.setWidth_eq_extractLsb' (by decide)

/-- The word of format L: the opcode's byte above the length (R74). -/
theorem headerWord_argL (o : Opcode) {n : Nat} (hn : n < 65536) :
    headerWord o (argL (BitVec.ofNat 16 n)) = (o.code.setWidth 32 <<< 24) ||| BitVec.ofNat 32 n := by
  rw [headerWord, argL, BitVec.setWidth_setWidth (by decide), BitVec.setWidth_ofNat_of_le_of_lt (by decide) hn]

theorem anyBadChannel_iff (ps : List BrightPair) : anyBadChannel ps = true ↔ ∃ p ∈ ps, 17 < p.channel.toNat := by
  simp [anyBadChannel]

theorem anyBadValue_iff (ps : List BrightPair) : anyBadValue ps = true ↔ ∃ p ∈ ps, 255 < p.value.toNat := by
  simp [anyBadValue]

theorem not_anyBadChannel {ps : List BrightPair} (h : ∀ p ∈ ps, p.channel.toNat ≤ 17) : ¬ anyBadChannel ps = true := by
  rw [anyBadChannel_iff]
  exact fun ⟨p, hp, hgt⟩ => (h p hp).not_gt hgt

theorem not_anyBadValue {ps : List BrightPair} (h : ∀ p ∈ ps, p.value.toNat ≤ 255) : ¬ anyBadValue ps = true := by
  rw [anyBadValue_iff]
  exact fun ⟨p, hp, hgt⟩ => (h p hp).not_gt hgt

/-- R173, R174: a register takes the value of the last pair that names it, and keeps its own if none does. -/
theorem applyPairs_getElem (ps : List BrightPair) (k : Chan) : ∀ br : Vector Byte 18,
    (applyPairs ps br)[k] =
      ((ps.reverse.find? fun p => decide (p.channel.toNat = k.val)).map fun p =>
        p.value.extractLsb' 0 8).getD br[k] := by
  induction ps with
  | nil => exact fun br => rfl
  | cons p ps ih =>
    intro br
    have hset : (br.setIfInBounds p.channel.toNat (p.value.setWidth 8))[k] =
        if p.channel.toNat = k.val then p.value.extractLsb' 0 8 else br[k] := by
      rw [setWidth_eq_lowByte]
      exact Vector.getElem_setIfInBounds k.isLt
    rw [applyPairs, ih, hset, List.reverse_cons, List.find?_append]
    cases ps.reverse.find? fun q => decide (q.channel.toNat = k.val) with
    | some q => rfl
    | none => by_cases hp : p.channel.toNat = k.val <;> simp [hp]

theorem applyPairs_of_not_named {ps : List BrightPair} {k : Chan} (h : ∀ p ∈ ps, p.channel.toNat ≠ k.val)
    (br : Vector Byte 18) : (applyPairs ps br)[k] = br[k] := by
  have hnone : ps.reverse.find? (fun p => decide (p.channel.toNat = k.val)) = none := by simpa using h
  rw [applyPairs_getElem, hnone]
  rfl

theorem applyPairs_singleton {p : BrightPair} {c : Chan} (hc : c.val = p.channel.toNat) (br : Vector Byte 18) :
    applyPairs [p] br = br.set c (p.value.extractLsb' 0 8) := by
  rw [applyPairs, applyPairs, ← hc, setWidth_eq_lowByte]
  exact Vector.ext fun n hn => (Vector.getElem_setIfInBounds hn).trans (Vector.getElem_set c.isLt hn).symm

/-! ## The two commands -/

/-- R170: a command that assigns the brightness registers and emits the duty values writes those of the new registers,
then commits. -/
theorem writeThenCommit_of_emitPwm {i : Instr} {s : State} {br : Vector Byte 18}
    (h : exec i s = emitPwm (setBr br s)) :
    WriteThenCommit i s { s with br := br } 0x01 (correctedBytes { s with br := br }) :=
  writeThenCommit_of_transmit h rfl

theorem execBrightSet_valid {ch : BitVec 5} {val : BitVec 16} {s : State} {c : Chan} (hp : s.phase = .ready)
    (hc : c.val = ch.toNat) (hval : val.toNat ≤ 255) :
    exec (.brightSet ch val) s = emitPwm (setBr (s.br.set c (val.extractLsb' 0 8)) s) := by
  rw [exec_of_channel rfl hp hc, withBrightness_valid hval, setWidth_eq_lowByte]
  rfl

/-- Settles O32: the phase check, the checks of the channel and the value, and the new registers emitted. -/
theorem brightSetUpdatesOneRegisterAndSendsAll : Obligations.BrightSetUpdatesOneRegisterAndSendsAll :=
  fun ch val s => ⟨congrArg (· :: []) (headerWord_argCV .brightSet ch val),
    fun hp hval _ hc => writeThenCommit_of_emitPwm (execBrightSet_valid hp hc hval),
    exec_of_badChannel rfl, exec_of_badValue rfl,
    commandsOutsideReadyAnswerInvalidState (.brightSet ch val) s nofun nofun⟩

section
variable {ps : List BrightPair} {s : State} (hp : s.phase = .ready)
include hp

theorem execBrightBulk_badChannel (hch : ∃ p ∈ ps, 17 < p.channel.toNat) :
    exec (.brightBulk ps) s = .next (ended s 0x10000000) := by
  rw [exec, execBrightBulk, requireReady_ready hp, if_pos ((anyBadChannel_iff ps).mpr hch), fail,
    raise_invalidSpecifier]

theorem execBrightBulk_badValue (hch : ∀ p ∈ ps, p.channel.toNat ≤ 17) (hval : ∃ p ∈ ps, 255 < p.value.toNat) :
    exec (.brightBulk ps) s = .next (ended s 0x40000000) := by
  rw [exec, execBrightBulk, requireReady_ready hp, if_neg (not_anyBadChannel hch),
    if_pos ((anyBadValue_iff ps).mpr hval), fail, raise_invalidValue]

theorem execBrightBulk_valid (hch : ∀ p ∈ ps, p.channel.toNat ≤ 17) (hval : ∀ p ∈ ps, p.value.toNat ≤ 255) :
    exec (.brightBulk ps) s = emitPwm (setBr (applyPairs ps s.br) s) := by
  rw [exec, execBrightBulk, requireReady_ready hp, if_neg (not_anyBadChannel hch), if_neg (not_anyBadValue hval)]

end

/-- Settles O33: the phase check, the checks of all channels and then of all values, and the new registers emitted. -/
theorem brightBulkAppliesThePairsInOrderAndSendsAll : Obligations.BrightBulkAppliesThePairsInOrderAndSendsAll :=
  fun ps s => ⟨fun hlen => congrArg (· :: ps.map wordOfPair) (headerWord_argL .brightBulk hlen),
    fun hp hch hval => ⟨applyPairs ps s.br, fun k => applyPairs_getElem ps k s.br,
      writeThenCommit_of_emitPwm (execBrightBulk_valid hp hch hval)⟩,
    execBrightBulk_badChannel, execBrightBulk_badValue,
    commandsOutsideReadyAnswerInvalidState (.brightBulk ps) s nofun nofun⟩

/-! ## One pair -/

/-- Settles O57: each check of the one command answers as its check of the other, and one pair sets one register. -/
theorem onePairBulkIsBrightSet : Obligations.OnePairBulkIsBrightSet := by
  intro s ch val
  have hwidth : (ch.setWidth 16).toNat = ch.toNat := BitVec.toNat_setWidth_of_le (by decide)
  by_cases hp : s.phase = .ready
  · obtain hch | hch := Nat.lt_or_ge 17 ch.toNat
    · rw [execBrightBulk_badChannel hp (by simpa [hwidth] using hch),
        exec_of_badChannel (i := .brightSet ch val) rfl hp hch]
    · obtain hval | hval := Nat.lt_or_ge 255 val.toNat
      · rw [execBrightBulk_badValue hp (by simpa [hwidth] using hch) (by simpa using hval),
          exec_of_badValue (i := .brightSet ch val) rfl hp hch hval]
      · rw [execBrightBulk_valid hp (by simpa [hwidth] using hch) (by simpa using hval),
          execBrightSet_valid (c := ⟨ch.toNat, by omega⟩) hp rfl hval]
        exact congrArg (fun br => emitPwm (setBr br s)) (applyPairs_singleton hwidth.symm s.br)
  · rw [exec_notReady (i := .brightBulk _) nofun nofun hp, exec_notReady (i := .brightSet ch val) nofun nofun hp]

/-! ## What the brightness commands leave alone -/

/-- The result is a failure, or the duty values emitted after registers that `named` admits have been assigned. -/
def FailsOrEmitsPwm (named : Chan → Prop) (s : State) (r : Result) : Prop :=
  (∃ e, r = fail e s) ∨ ∃ br, r = emitPwm (setBr br s) ∧ ∀ k : Chan, ¬ named k → br[k] = s.br[k]

/-- The channels whose registers a brightness command may assign. -/
def namesRegister : Instr → Chan → Prop
  | .brightSet ch _, k => k.val = ch.toNat
  | .brightBulk ps, k => ∃ p ∈ ps, p.channel.toNat = k.val
  | _, _ => True

theorem exec_failsOrEmitsPwm {i : Instr} (hi : writesBrightness i = true) (s : State) :
    FailsOrEmitsPwm (namesRegister i) s (exec i s) := by
  have hfail : ∀ e, FailsOrEmitsPwm (namesRegister i) s (fail e s) := fun e => .inl ⟨e, rfl⟩
  cases i with
  | brightSet ch val =>
    refine requireReady_induction hfail fun _ => withChannel_induction hfail fun c hc => ?_
    by_cases hval : val.toNat ≤ 255
    · rw [withBrightness_valid hval]
      exact .inr ⟨_, rfl, fun k hk =>
        Vector.getElem_set_ne c.isLt k.isLt fun hck => hk (hck.symm.trans hc)⟩
    · rw [withBrightness_invalid (by omega)]
      exact hfail .invalidValue
  | brightBulk ps =>
    refine requireReady_induction hfail fun _ =>
      iteInduction (fun _ => hfail _) fun _ => iteInduction (fun _ => hfail _) fun _ => .inr ⟨_, rfl, fun k hk => ?_⟩
    exact applyPairs_of_not_named (fun p hp hpk => hk ⟨p, hp, hpk⟩) s.br
  | _ => cases hi

/-- No bus sequence changes a brightness register, so the command's own assignment is the only change. -/
theorem FailsOrEmitsPwm.br_frame {named : Chan → Prop} {s t : State} (h : FailsOrEmitsPwm named s (.next t))
    {k : Chan} (hk : ¬ named k) : t.br[k] = s.br[k] := by
  obtain ⟨e, ⟨⟩⟩ | ⟨br, ⟨⟩, hkeep⟩ := h
  · rfl
  · rw [(runScript_frame _ _).br]
    exact hkeep k hk

theorem brightness_writes_no_table_mask_or_phase {i : Instr} (hi : writesBrightness i = true) :
    writesTables i = false ∧ writesMask i = false ∧ i ≠ .openCmd ∧ i ≠ .closeCmd := by
  cases i with
  | brightSet ch val | brightBulk ps => exact ⟨rfl, rfl, nofun, nofun⟩
  | _ => cases hi

/-- Settles O44: no brightness command is among the writers of another register (`eachRegisterHasItsOwnWriters`). -/
theorem brightnessCommandsFrame : Obligations.BrightnessCommandsFrame := by
  intro i s t hi h
  obtain ⟨-, hlut, hmask, hphase⟩ := eachRegisterHasItsOwnWriters i s t h
  obtain ⟨hnolut, hnomask, hopen, hclose⟩ := brightness_writes_no_table_mask_or_phase hi
  obtain ⟨hrx, hport⟩ := exec_words h
  have hexec : FailsOrEmitsPwm (namesRegister i) s (.next t) := h ▸ exec_failsOrEmitsPwm hi s
  refine ⟨hphase hopen hclose, hmask hnomask hopen hclose, hlut hnolut, readLut_congr (hlut hnolut), hrx, hport,
    exec_resetLine h, ?_, ?_⟩
  · rintro ch val rfl k hk
    exact hexec.br_frame hk
  · rintro ps rfl k hk
    exact hexec.br_frame fun ⟨p, hp, hpk⟩ => hk p hp hpk

/-! ## The bytes sent with default tables -/

/-- R63: whatever the answers, the transactions made are the data write and then the commit, or a beginning of these. -/
theorem runScript_committed_trace (reg : Byte) (data : List Byte) (s : State) :
    ∃ es, (runScript (committedScript reg data) s).trace = s.trace ++ es ∧
      es.map (fun x => (x.reg, x.data)) <+: [(reg, data), (regCommit, commitData)] := by
  rw [committedScript]
  match ha : s.answers with
  | [] => exact ⟨[], by rw [runScript_write_wait ha]; simp, List.nil_prefix⟩
  | .err e :: as => exact ⟨[busEntry reg data (.err e)], by rw [runScript_write_err ha]; simp, by simp [busEntry]⟩
  | .ok :: as =>
    rw [runScript_write_ok ha]
    match as with
    | [] => exact ⟨[busEntry reg data .ok], by rw [runScript_write_wait rfl]; simp, by simp [busEntry]⟩
    | .err e :: as =>
      exact ⟨[busEntry reg data .ok, busEntry regCommit commitData (.err e)],
        by rw [runScript_write_err rfl]; simp, List.prefix_rfl⟩
    | .ok :: as =>
      exact ⟨[busEntry reg data .ok, busEntry regCommit commitData .ok],
        by rw [runScript_write_ok rfl]; simp [runScript_finish, setPhaseIf], List.prefix_rfl⟩

/-- R170: a brightness command writes nothing to the PWM register but the duty values of the registers it leaves. -/
theorem FailsOrEmitsPwm.data_eq {named : Chan → Prop} {s t : State} (h : FailsOrEmitsPwm named s (.next t))
    {es : List BusEntry} (htrace : t.trace = s.trace ++ es) {x : BusEntry} (hx : x ∈ es) (hreg : x.reg = regPwm) :
    ∃ br, x.data = pwmPayload (setBr br s) := by
  obtain ⟨e, ⟨⟩⟩ | ⟨br, ⟨⟩, -⟩ := h
  · have hnil : es = [] := by simpa using htrace
    rw [hnil] at hx
    cases hx
  · obtain ⟨es', htrace', hprefix⟩ := runScript_committed_trace regPwm (pwmPayload (setBr br s)) (setBr br s)
    obtain rfl : es' = es := List.append_cancel_left (htrace'.symm.trans htrace)
    have hwrite := hprefix.subset (List.mem_map_of_mem hx)
    exact ⟨br, by simpa [hreg, regPwm, regCommit] using hwrite⟩

theorem defTable_le_249 : ∀ v ∈ defTable, v.toNat ≤ 249 := by decide +kernel

theorem defEntry_le_249 (b : Nat) : (defEntry b).toNat ≤ 249 := by
  by_cases hb : b < defTable.length
  · rw [← defTable_getElem hb]
    exact defTable_le_249 _ (List.getElem_mem hb)
  · rw [defEntry, List.getD_eq_default _ _ (by omega)]
    decide

/-- Settles O58: each byte sent is read from a table, and no entry of `DEF` is above its last. -/
theorem defaultTablesSendAtMost249 : Obligations.DefaultTablesSendAtMost249 := by
  intro i s t es hi hdef h htrace x hx hreg b hb
  obtain ⟨br, hdata⟩ := FailsOrEmitsPwm.data_eq (h ▸ exec_failsOrEmitsPwm hi s) htrace hx hreg
  rw [hdata, pwmPayload, List.mem_map] at hb
  obtain ⟨k, -, rfl⟩ := hb
  rw [readLut_congr (t := setBr br s) (s := s) rfl, hdef]
  exact defEntry_le_249 _

end Sys2Proof.Machine
end

section
/-! The statements of 60_exceptions.md over all commands: what a validation error (R200) and a `TransportError` (R202)
leave behind, and that `CLOSE` reports no error (R203). -/

namespace Sys2Proof.Machine

open Sys2Proof.Spec

/-! ## The response of a bus sequence -/

/-- R202: from `s` to `t` a bus sequence made the transactions `es` and then one answered `err(e)`, which ended it with
response `w` and the phase unchanged. -/
def StoppedBy (s t : State) (w : Word) (es : List BusEntry) (e : Byte) : Prop :=
  (∃ reg data, t.trace = s.trace ++ es ++ [wr reg data (.err e)]) ∧ w = transportErrorWord e ∧ t.phase = s.phase

theorem StoppedBy.log {s t : State} {w : Word} {reg : Byte} {data : List Byte} {a : Answer} {as : List Answer}
    {es : List BusEntry} {e : Byte} (h : StoppedBy (logWrite reg data a as s) t w es e) :
    StoppedBy s t w (busEntry reg data a :: es) e := by
  obtain ⟨⟨r, d, htrace⟩, hw, hphase⟩ := h
  exact ⟨⟨r, d, by simpa using htrace⟩, hw, hphase⟩

theorem stoppedBy_raise (s : State) (reg : Byte) (data : List Byte) (e : Byte) (as : List Answer) :
    StoppedBy s (raise (.transportError e) (logWrite reg data (.err e) as s)) (transportErrorWord e) [] e :=
  ⟨⟨reg, data, by simp [wr, busEntry, busTarget]⟩, rfl, rfl⟩

/-- A bus sequence that has ended responded 0, or it was stopped by the error its response reports. -/
theorem runScript_response (sc : Script) : ∀ {s : State} {w : Word},
    (runScript sc s).responses = s.responses ++ [w] →
      w = okWord 0 ∨ ∃ es e, StoppedBy s (runScript sc s) w es e := by
  induction sc with
  | finish p =>
    intro s w h
    cases p <;> exact .inl (by simpa [runScript_finish, setPhaseIf] using h.symm)
  | write reg data k ih =>
    intro s w h
    match ha : s.answers with
    | [] => simp [runScript_write_wait ha] at h
    | .ok :: as =>
      rw [runScript_write_ok ha] at h ⊢
      exact (ih h).imp_right fun ⟨_, _, hstop⟩ => ⟨_, _, hstop.log⟩
    | .err e :: as =>
      rw [runScript_write_err ha] at h ⊢
      obtain rfl : transportErrorWord e = w := by simpa [errWord_transportError] using h
      exact .inr ⟨_, _, stoppedBy_raise s reg data e as⟩
  | attempt reg data k l ihk ihl =>
    intro s w h
    match ha : s.answers with
    | [] => simp [runScript_attempt_wait ha] at h
    | .ok :: as =>
      rw [runScript_attempt_ok ha] at h ⊢
      exact (ihk h).imp_right fun ⟨_, _, hstop⟩ => ⟨_, _, hstop.log⟩
    | .err e :: as =>
      rw [runScript_attempt_err ha] at h ⊢
      exact (ihl h).imp_right fun ⟨_, _, hstop⟩ => ⟨_, _, hstop.log⟩

theorem responseStatus_transportErrorWord (e : Byte) : responseStatus (transportErrorWord e) = 6 := by
  rw [← errWord_transportError, responseStatus_err, errStatus]

/-! ## Validation errors -/

/-- R190: a command's response says how it ended: a validation error ended it before it did anything, or it
responded, or an error stopped its bus sequence. -/
theorem exec_response {i : Instr} {s t : State} {w : Word} (h : exec i s = .next t)
    (hw : t.responses = s.responses ++ [w]) :
    (∃ e, isValidation e = true ∧ w = errWord e ∧ t = ended s w) ∨ (∃ d, w = okWord d) ∨
      ∃ es e, StoppedBy s t w es e := by
  have hdid := exec_cases i s
  rw [h] at hdid
  cases hdid with
  | failed e he =>
    obtain rfl : errWord e = w := by simpa using hw
    exact .inl ⟨e, he, rfl, rfl⟩
  | responded d u hu hp => exact .inr (.inl ⟨d, by simpa [hu.responses] using hw.symm⟩)
  | launched sc u hu hp hl hc ho =>
    rw [← hu.responses] at hw
    obtain hok | ⟨es, e, htrace, hcode, hphase⟩ := runScript_response sc hw
    · exact .inr (.inl ⟨0, hok⟩)
    · exact .inr (.inr ⟨es, e, hu.trace ▸ htrace, hcode, hphase.trans hp⟩)

/-- Settles O35: the other two ways to end report status 0 and status 6. -/
theorem validationErrorsChangeNothing : Obligations.ValidationErrorsChangeNothing := by
  intro i s t w h hw hstatus
  obtain ⟨e, -, -, ht⟩ | ⟨d, rfl⟩ | ⟨es, e, -, rfl, -⟩ := exec_response h hw
  · exact ht
  · rw [responseStatus_ok] at hstatus
    exact absurd hstatus (by decide)
  · rw [responseStatus_transportErrorWord] at hstatus
    exact absurd hstatus (by decide)

/-! ## `CLOSE` -/

/-- From `s` to `t` the command waits with no response, or it has responded 0 and the phase is `DISPOSED`. -/
def WaitsOrCloses (s t : State) : Prop :=
  (t.pending.isSome = true ∧ t.responses = s.responses) ∨
  (t.responses = s.responses ++ [0x00000000] ∧ t.phase = .disposed)

theorem waitsOrCloses_finish (s : State) : WaitsOrCloses s (runScript (.finish (some .disposed)) s) :=
  .inr ⟨by rw [runScript_finish, respond_responses, okWord_zero]; rfl, rfl⟩

/-- R101: an attempted write closes if the command does so after either answer. -/
theorem waitsOrCloses_attempt {k l : Script} (hk : ∀ s, WaitsOrCloses s (runScript k s))
    (hl : ∀ s, WaitsOrCloses s (runScript l s)) (reg : Byte) (data : List Byte) (s : State) :
    WaitsOrCloses s (runScript (.attempt reg data k l) s) := by
  match ha : s.answers with
  | [] => exact .inl (by simp [runScript_attempt_wait ha])
  | .ok :: as => exact runScript_attempt_ok ha reg data k l ▸ hk (logWrite reg data .ok as s)
  | .err e :: as => exact runScript_attempt_err ha reg data k l ▸ hl (logWrite reg data (.err e) as s)

theorem waitsOrCloses_closeScript (m : BitVec 18) (s : State) : WaitsOrCloses s (runScript (closeScript m) s) := by
  have hout : ∀ u, WaitsOrCloses u (runScript closeOutput u) :=
    waitsOrCloses_attempt waitsOrCloses_finish waitsOrCloses_finish regOutEn outOff
  exact waitsOrCloses_attempt (waitsOrCloses_attempt hout hout regCommit commitData) hout regMask (pack m) s

theorem exec_close_waitsOrCloses {s t : State} (h : exec .closeCmd s = .next t) : WaitsOrCloses s t := by
  rw [exec] at h
  by_cases hp : s.phase = .ready
  · rw [execClose_ready hp rfl] at h
    cases h
    exact waitsOrCloses_closeScript 0 (sent (setMask 0 s) s.answers [])
  · rw [execClose_notReady hp] at h
    cases h
    exact .inr ⟨by rw [respond_responses, okWord_zero]; rfl, rfl⟩

/-- Settles O37: a waiting `CLOSE` has no response, and one that has ended responded 0. -/
theorem closeNeverReportsAnError : Obligations.CloseNeverReportsAnError := by
  intro s t h
  obtain ⟨hwaits, hnone⟩ | ⟨hzero, hphase⟩ := exec_close_waitsOrCloses h
  · exact ⟨fun w hw => by simp [hnone] at hw, fun hp => by simp [hp] at hwaits⟩
  · exact ⟨fun w hw => by simpa [hzero] using hw.symm, fun _ => hphase⟩

/-! ## Transport errors -/

/-- No write of the sequence has its error discarded (R12). -/
def checksEveryWrite : Script → Bool
  | .finish _ => true
  | .write _ _ rest => checksEveryWrite rest
  | .attempt _ _ _ _ => false

/-- From `s` to `t` transactions were made of which all but the last were answered `ok`. -/
def AllButLastOk (s t : State) : Prop :=
  ∃ es, t.trace = s.trace ++ es ∧ ∀ x ∈ es.dropLast, x.answer = .ok

theorem allButLastOk_of_trace {s t : State} (h : t.trace = s.trace) : AllButLastOk s t := ⟨[], by simp [h], nofun⟩

theorem AllButLastOk.log_ok {s t : State} {reg : Byte} {data : List Byte} {as : List Answer}
    (h : AllButLastOk (logWrite reg data .ok as s) t) : AllButLastOk s t := by
  obtain ⟨es, htrace, hok⟩ := h
  refine ⟨busEntry reg data .ok :: es, by simpa using htrace, ?_⟩
  cases es with
  | nil => exact nofun
  | cons y ys => exact List.forall_mem_cons.mpr ⟨rfl, hok⟩

theorem runScript_allButLastOk {sc : Script} (h : checksEveryWrite sc = true) :
    ∀ s, AllButLastOk s (runScript sc s) := by
  induction sc with
  | finish p => exact fun s => allButLastOk_of_trace (by cases p <;> rfl)
  | write reg data k ih =>
    intro s
    match ha : s.answers with
    | [] => exact runScript_write_wait ha reg data k ▸ allButLastOk_of_trace rfl
    | .ok :: as => exact runScript_write_ok ha reg data k ▸ (ih h _).log_ok
    | .err e :: as => exact runScript_write_err ha reg data k ▸ ⟨[busEntry reg data (.err e)], rfl, nofun⟩
  | attempt reg data k l ihk ihl => cases h

/-- The result is a state up to which all transactions but the last were answered `ok`. -/
def StopsAtError (s : State) (r : Result) : Prop := ∃ t, r = .next t ∧ AllButLastOk s t

section
variable {s u : State}

theorem stopsAtError_fail (e : Err) : StopsAtError s (fail e s) := ⟨_, rfl, allButLastOk_of_trace rfl⟩

theorem stopsAtError_answerWith (h : u.trace = s.trace) (d : BitVec 24) : StopsAtError s (answerWith d u) :=
  ⟨_, rfl, allButLastOk_of_trace h⟩

theorem stopsAtError_transmit {sc : Script} (h : u.trace = s.trace) (hsc : checksEveryWrite sc = true) :
    StopsAtError s (transmit sc u) := by
  obtain ⟨es, htrace, hok⟩ := runScript_allButLastOk hsc u
  exact ⟨_, rfl, es, h ▸ htrace, hok⟩

end

section
variable {P : Result → Prop} {s : State} (hfail : ∀ e, P (fail e s))
include hfail

theorem withVector_induction {sel : BitVec 24} {body : BitVec 18 → Result} (h : ∀ m, P (body m)) :
    P (withVector sel s body) := by
  by_cases hsel : sel.extractLsb' 18 6 = 0
  · rw [withVector_valid hsel]
    exact h _
  · rw [withVector_invalid hsel]
    exact hfail .invalidSpecifier

theorem withBrightness_induction {v : BitVec 16} {body : Byte → Result} (h : ∀ b, P (body b)) :
    P (withBrightness v s body) := by
  by_cases hv : v.toNat ≤ 255
  · rw [withBrightness_valid hv]
    exact h _
  · rw [withBrightness_invalid (by omega)]
    exact hfail .invalidValue

end

/-- Only `CLOSE` goes on after a write that failed. -/
theorem exec_stopsAtError {i : Instr} (hclose : i ≠ .closeCmd) (s : State) : StopsAtError s (exec i s) := by
  have hfail : ∀ e, StopsAtError s (fail e s) := stopsAtError_fail
  cases i with
  | closeCmd => exact absurd rfl hclose
  | openCmd => exact iteInduction (fun _ => hfail _) fun _ => stopsAtError_transmit rfl rfl
  | outEnable | outDisable | chipReset | allOn | allOff =>
    exact requireReady_induction hfail fun _ => stopsAtError_transmit rfl rfl
  | chOnV sel | chOffV sel | maskLoad sel =>
    exact requireReady_induction hfail fun _ => withVector_induction hfail fun _ => stopsAtError_transmit rfl rfl
  | chOnI ch | chOffI ch =>
    exact requireReady_induction hfail fun _ => withChannel_induction hfail fun _ _ => stopsAtError_transmit rfl rfl
  | isSet ch | gammaReset ch =>
    exact requireReady_induction hfail fun _ => withChannel_induction hfail fun _ _ => stopsAtError_answerWith rfl _
  | maskRead => exact requireReady_induction hfail fun _ => stopsAtError_answerWith rfl _
  | gammaResetAll =>
    have hupdated := updated_foldl_reset (i := .gammaResetAll) rfl (List.finRange 18) s
    exact requireReady_induction hfail fun _ => stopsAtError_answerWith hupdated.trace _
  | gammaSet ch es =>
    exact requireReady_induction hfail fun _ => withChannel_induction hfail fun _ _ =>
      iteInduction (fun _ => hfail _) fun _ => iteInduction (fun _ => hfail _) fun _ => stopsAtError_answerWith rfl _
  | translate ch val =>
    exact requireReady_induction hfail fun _ => withChannel_induction hfail fun _ _ =>
      withBrightness_induction hfail fun _ => stopsAtError_answerWith rfl _
  | brightSet ch val =>
    exact requireReady_induction hfail fun _ => withChannel_induction hfail fun _ _ =>
      withBrightness_induction hfail fun _ => stopsAtError_transmit rfl rfl
  | brightBulk ps =>
    exact requireReady_induction hfail fun _ =>
      iteInduction (fun _ => hfail _) fun _ => iteInduction (fun _ => hfail _) fun _ => stopsAtError_transmit rfl rfl

theorem errStatus_of_isValidation {e : Err} (h : isValidation e = true) : errStatus e ≠ 6 := by
  cases e with
  | transportError e => cases h
  | _ => decide

/-- Settles O36: the error that stopped the command was answered to the last write (`exec_response`), and the writes
before the last were answered `ok` (`exec_stopsAtError`). -/
theorem transportErrorStopsAtTheFailingWrite : Obligations.TransportErrorStopsAtTheFailingWrite := by
  intro i s t w h hw hstatus
  have hclose : i ≠ .closeCmd := by
    rintro rfl
    obtain ⟨hzero, -⟩ := closeNeverReportsAnError s t h
    rw [hzero w hw] at hstatus
    exact absurd hstatus (by decide)
  obtain ⟨e, he, rfl, -⟩ | ⟨d, rfl⟩ | ⟨es, e, ⟨reg, data, htrace⟩, hcode, hphase⟩ := exec_response h hw
  · exact absurd (responseStatus_err e ▸ hstatus) (errStatus_of_isValidation he)
  · rw [responseStatus_ok] at hstatus
    exact absurd hstatus (by decide)
  · obtain ⟨_, hexec, es', htrace', hok⟩ := exec_stopsAtError hclose s
    cases h.symm.trans hexec
    obtain rfl : es' = es ++ [wr reg data (.err e)] := by simpa [htrace] using htrace'.symm
    rw [List.dropLast_concat] at hok
    exact ⟨es, reg, data, e, htrace, hok, hcode, hphase⟩

end Sys2Proof.Machine
end

section
/-! The statements of 70_reset_and_hazards.md: when a step is refused (R222, R190), and what the reset input does
between packets and during a command (R220, R222). -/

namespace Sys2Proof.Machine

open Sys2Proof.Spec

/-! ## A command is running -/

theorem busy_iff {s : State} : busy s = true ↔ s.rx ≠ [] ∨ s.pending ≠ none := by
  rw [← Bool.not_eq_false, busy_eq_false, not_and_or]

theorem resetTo_refused_iff {level : Bool} {s : State} {r : Refusal} :
    resetTo level s = .refused r ↔ r = .resetDuringCommand ∧ (s.rx ≠ [] ∨ s.pending ≠ none) := by
  rw [← busy_iff]
  obtain ⟨hbusy, hreset⟩ | ⟨hidle, hreset⟩ := resetTo_cases level s
  · simp [hbusy, hreset, eq_comm]
  · simp [hidle, hreset]

theorem resetTo_of_busy {level : Bool} {s : State} (h : s.rx ≠ [] ∨ s.pending ≠ none) :
    resetTo level s = .refused .resetDuringCommand :=
  resetTo_refused_iff.mpr ⟨rfl, h⟩

/-! ## Steps that stop -/

/-- With the reset input released every step has a next state: each of the four things it can do has one. -/
theorem step_released_next {s : State} (hr : s.resetLine = false) : ∃ t, step s = .next t := by
  cases hp : s.pending with
  | some sc => exact ⟨_, step_pending hr hp⟩
  | none =>
    cases hf : fetch s with
    | wait => exact ⟨_, step_wait hr hp hf⟩
    | illegal why rest => exact ⟨_, step_illegal hr hp hf⟩
    | packet i rest => exact step_packet hr hp hf ▸ exec_next i _

/-- Settles O39: `Fault` has no constructor, a step with reset asserted is refused as `resetTo` is, and one with reset
released has a next state. -/
theorem stepStopsOnlyOnResetDuringACommand : Obligations.StepStopsOnlyOnResetDuringACommand := by
  refine fun s => ⟨nofun, fun r => ?_⟩
  cases hr : s.resetLine with
  | true =>
    rw [step_asserted hr, resetTo_refused_iff]
    simp
  | false =>
    obtain ⟨t, ht⟩ := step_released_next hr
    simp [ht]

/-! ## The reset input -/

/-- R40: the reset state, with the inputs as they are, at either level of the reset input. -/
theorem isResetOf_hardReset (level : Bool) (s : State) : IsResetOf s level (setResetLine level (hardReset s)) := by
  obtain ⟨hphase, hmask, hbr, hlut, hrx, htrace, hresponses⟩ := resetStateIsThatOfTheTable
  exact ⟨hphase, hmask, hbr, hlut, hrx, rfl, hresponses, htrace, rfl, rfl, rfl⟩

/-- R220: between packets reset gives the state of R40. -/
theorem resetTo_of_idle {level : Bool} {s : State} (hrx : s.rx = []) (hp : s.pending = none) :
    ∃ t, resetTo level s = .next t ∧ IsResetOf s level t := by
  have hidle : busy s = false := busy_eq_false.mpr ⟨hrx, hp⟩
  exact ⟨setResetLine level (hardReset s), by simp [resetTo, hidle], isResetOf_hardReset level s⟩

/-- Asserting the input, holding it and releasing it are each a reset. -/
theorem driveReset_acting {level : Bool} {s : State} (h : level = true ∨ s.resetLine = true) :
    driveReset level s = resetTo level s :=
  if_pos (by simpa using h)

theorem driveReset_released {s : State} (hr : s.resetLine = false) : driveReset false s = .next s := by
  simp [driveReset, hr]

/-- Settles O10: a step with reset asserted and a move of the input that acts are the one operation `resetTo`. -/
theorem resetInputRestoresTheResetState : Obligations.ResetInputRestoresTheResetState := by
  refine fun s => ⟨fun hr => ?_, fun level h => ?_, driveReset_released⟩
  · rw [step_asserted hr]
    exact ⟨resetTo_of_idle, resetTo_of_busy⟩
  · rw [driveReset_acting h]
    exact ⟨resetTo_of_idle, resetTo_of_busy⟩

end Sys2Proof.Machine
end
